-- ==== Sys2Proof/Config.lean ====
section
/-! DEFINITION. The fixed parameters of the core (00_scope.md, section 3). The spec leaves no result open, so there is
no free value here. -/

namespace Sys2Proof.Config

/-- R7: the number of parameter slots the decoder resolves for every instruction. -/
def nslot : Nat := 3

/-- R8: the valid opcodes. -/
def opcodes : List Nat := [1, 2, 3, 4, 5, 6, 7, 8, 99]

/-- R8, R64: the valid parameter-mode values, 0 for Position and 1 for Immediate. -/
def modes : List Nat := [0, 1]

/-- R10, R41: the valid addresses are the naturals below this bound, the non-negative 64-bit signed values. -/
def addrLimit : Nat := 2 ^ 63

end Sys2Proof.Config
end

