-- ==== Sys2Proof/Word.lean ====
section
/-! DEFINITION. The word type and the one narrowing from mathematical integers to words (00_scope.md R6, R11, R12). -/

namespace Sys2Proof

/-- R6, R11: a word of `W = 64` bits. Its value as the spec means it is the signed one, `BitVec.toInt`. -/
abbrev Word := BitVec 64

/-- R12: `wrap_W(z)`, the unique word congruent to `z` modulo `2^64`. -/
def wrap (z : Int) : Word := BitVec.ofInt 64 z

end Sys2Proof
end

