-- ==== Sys2Proof/Syntax.lean ====
section
/-! DEFINITION. Instructions as the decoder delivers them (one constructor per row of spec/opcode_table.json), the ways a
word fails to be one, and the assembler notation of the spec (30_encoding.md R76). -/

namespace Sys2Proof

/-- R64: the two addressing modes. The decoder turns a mode digit into one of these or refuses it, so the machine never
sees a raw digit. -/
inductive Mode where
  | position
  | immediate
deriving DecidableEq, Repr

/-- R7: a parameter slot, 0, 1 or 2. -/
abbrev Slot := Fin 3

/-- R71, R82: an instruction is what the decoder reads from the instruction word: the operation and the modes of ALL three
slots, also of the slots the operation does not use, because every slot is resolved (R87). The parameter words are not part
of it: the instruction word holds no immediate field (R69), and the address-resolution unit reads them from memory when the
instruction runs (R81, R85). -/
inductive Instr where
  /-- opcode 1, R101 -/
  | add (m0 m1 m2 : Mode)
  /-- opcode 2, R102 -/
  | mul (m0 m1 m2 : Mode)
  /-- opcode 3, `IN`, R112 -/
  | inp (m0 m1 m2 : Mode)
  /-- opcode 4, `OUT`, R113 -/
  | out (m0 m1 m2 : Mode)
  /-- opcode 5, R121 -/
  | jt (m0 m1 m2 : Mode)
  /-- opcode 6, R122 -/
  | jf (m0 m1 m2 : Mode)
  /-- opcode 7, R131 -/
  | lt (m0 m1 m2 : Mode)
  /-- opcode 8, R132 -/
  | eq (m0 m1 m2 : Mode)
  /-- opcode 99, R140 -/
  | hlt (m0 m1 m2 : Mode)
deriving DecidableEq, Repr

/-- Why a word is no instruction. Each constructor also carries the slots whose modes were valid before the error, in slot
order, because the cycle resolves those before it raises (R80, R86). -/
inductive DecodeError where
  /-- R83: the mode value of `slot` is neither 0 nor 1; `value` is that mode value. -/
  | invalidParameterMode (earlier : List (Slot × Mode)) (slot : Slot) (value : Word)
  /-- R89: the opcode is in no row of the table; `value` is the two-digit opcode. -/
  | invalidOpcode (earlier : List (Slot × Mode)) (value : Word)
deriving DecidableEq, Repr

/-- R76: an operand of the assembler notation, `[a]` or `#v`. -/
inductive Operand where
  /-- `[a]`: Position mode, the parameter word is the address `a` of the operand. -/
  | position (a : Word)
  /-- `#v`: Immediate mode, the parameter word is the literal `v`. -/
  | immediate (v : Word)
deriving DecidableEq, Repr

/-- R76: one line of assembler text, the operands in slot order. -/
inductive AsmLine where
  | add (src1 src2 dst : Operand)
  | mul (src1 src2 dst : Operand)
  | inp (dst : Operand)
  | out (src : Operand)
  | jt (cond target : Operand)
  | jf (cond target : Operand)
  | lt (src1 src2 dst : Operand)
  | eq (src1 src2 dst : Operand)
  | hlt
  /-- `DATA v, ...`: literal words. -/
  | data (words : List Word)
deriving DecidableEq, Repr

end Sys2Proof
end

