-- ==== Sys2Proof/WellFormed.lean ====
section
/-! DEFINITION. When a word is an instruction word, said by its decimal digits (30_encoding.md R62, R64, R67, R71) and not
by the decoder's formulas (R63). An `Instr` is well-formed by construction: its modes have type `Mode`, which has the two
legal values and no other. -/

namespace Sys2Proof

/-- R14: the decimal digit of `n` at position `k`. -/
def digit (k n : Nat) : Nat := n / 10 ^ k % 10

/-- R67: an instruction word is not negative. -/
def signWellFormed (iw : Word) : Bool := decide (0 ≤ iw.toInt)

/-- R62, R71, R72: the two low digits name a valid opcode. -/
def opcodeWellFormed (iw : Word) : Bool := decide (10 * digit 1 iw.toNat + digit 0 iw.toNat ∈ Config.opcodes)

/-- R62, R64, R65: the mode digit of slot `i` is 0 or 1. -/
def modeWellFormed (i : Slot) (iw : Word) : Bool := decide (digit (2 + i.val) iw.toNat ∈ Config.modes)

/-- R71: the word selects an instruction. -/
def wordWellFormed (iw : Word) : Bool :=
  signWellFormed iw && opcodeWellFormed iw && modeWellFormed 0 iw && modeWellFormed 1 iw && modeWellFormed 2 iw

/-- R66, R71: the word has nothing above its five digits. -/
def wordCanonical (iw : Word) : Bool := wordWellFormed iw && decide (iw.toNat < 100000)

end Sys2Proof
end

