-- ==== Sys2Proof/Decode.lean ====
section
/-! DEFINITION. The decoder (30_encoding.md R63, R64, R71; 40_cycle_decode_addressing.md R82, R83, R89), total on every word
and rejecting by name, then the encoder and the assembler (R71, R76). -/

namespace Sys2Proof

/-- R13: the quotient truncated toward zero, for a positive divisor. -/
def tdiv (a b : Int) : Int := if 0 ≤ a then a / b else -((-a) / b)

/-- R13: the remainder that goes with `tdiv`; it has the sign of `a`. -/
def trem (a b : Int) : Int := a - b * tdiv a b

/-- R63, R82: `opcode = trem(iw, 100)`. -/
def opcodeField (iw : Word) : Int := trem iw.toInt 100

/-- R63, R82: `m[i] = trem(tdiv(mf, 10^i), 10)` with `mf = tdiv(iw, 100)`. -/
def modeField (iw : Word) (i : Slot) : Int := trem (tdiv (tdiv iw.toInt 100) (10 ^ i.val)) 10

/-- R64: the mode a mode value stands for; no other value is valid. -/
def Mode.ofField (v : Int) : Option Mode := if v = 0 then some .position else if v = 1 then some .immediate else none

/-- R64: the digit that stands for a mode. -/
def Mode.toDigit : Mode → Int
  | .position => 0
  | .immediate => 1

/-- Table R71: the operation an opcode selects. -/
def Instr.ofOpcode (opcode : Int) (m0 m1 m2 : Mode) : Option Instr :=
  if opcode = 1 then some (.add m0 m1 m2)
  else if opcode = 2 then some (.mul m0 m1 m2)
  else if opcode = 3 then some (.inp m0 m1 m2)
  else if opcode = 4 then some (.out m0 m1 m2)
  else if opcode = 5 then some (.jt m0 m1 m2)
  else if opcode = 6 then some (.jf m0 m1 m2)
  else if opcode = 7 then some (.lt m0 m1 m2)
  else if opcode = 8 then some (.eq m0 m1 m2)
  else if opcode = 99 then some (.hlt m0 m1 m2)
  else none

/-- R82, R83, R89: the decoder. The modes are checked in slot order and before the opcode (R73). -/
def decode (iw : Word) : Except DecodeError Instr :=
  match Mode.ofField (modeField iw 0) with
  | none => .error (.invalidParameterMode [] 0 (wrap (modeField iw 0)))
  | some m0 =>
    match Mode.ofField (modeField iw 1) with
    | none => .error (.invalidParameterMode [(0, m0)] 1 (wrap (modeField iw 1)))
    | some m1 =>
      match Mode.ofField (modeField iw 2) with
      | none => .error (.invalidParameterMode [(0, m0), (1, m1)] 2 (wrap (modeField iw 2)))
      | some m2 =>
        match Instr.ofOpcode (opcodeField iw) m0 m1 m2 with
        | none => .error (.invalidOpcode [(0, m0), (1, m1), (2, m2)] (wrap (opcodeField iw)))
        | some i => .ok i

/-- R86: the slots resolved before a failed decode. -/
def DecodeError.earlier : DecodeError → List (Slot × Mode)
  | .invalidParameterMode e _ _ => e
  | .invalidOpcode e _ => e

/-- Table R71: the opcode of an instruction. -/
def Instr.opcode : Instr → Nat
  | .add _ _ _ => 1
  | .mul _ _ _ => 2
  | .inp _ _ _ => 3
  | .out _ _ _ => 4
  | .jt _ _ _ => 5
  | .jf _ _ _ => 6
  | .lt _ _ _ => 7
  | .eq _ _ _ => 8
  | .hlt _ _ _ => 99

/-- R62: the mode of slot 0. -/
def Instr.mode0 : Instr → Mode
  | .add m _ _ | .mul m _ _ | .inp m _ _ | .out m _ _ | .jt m _ _ | .jf m _ _ | .lt m _ _ | .eq m _ _ | .hlt m _ _ => m

/-- R62: the mode of slot 1. -/
def Instr.mode1 : Instr → Mode
  | .add _ m _ | .mul _ m _ | .inp _ m _ | .out _ m _ | .jt _ m _ | .jf _ m _ | .lt _ m _ | .eq _ m _ | .hlt _ m _ => m

/-- R62: the mode of slot 2. -/
def Instr.mode2 : Instr → Mode
  | .add _ _ m | .mul _ _ m | .inp _ _ m | .out _ _ m | .jt _ _ m | .jf _ _ m | .lt _ _ m | .eq _ _ m | .hlt _ _ m => m

/-- R62: the mode of a slot. -/
def Instr.mode (i : Instr) (k : Slot) : Mode :=
  match k with
  | 0 => i.mode0
  | 1 => i.mode1
  | 2 => i.mode2

/-- Table R71: the operand arity. -/
def Instr.arity : Instr → Nat
  | .add _ _ _ | .mul _ _ _ | .lt _ _ _ | .eq _ _ _ => 3
  | .jt _ _ _ | .jf _ _ _ => 2
  | .inp _ _ _ | .out _ _ _ => 1
  | .hlt _ _ _ => 0

/-- R60: the number of consecutive words an instruction occupies. -/
def Instr.length (i : Instr) : Nat := 1 + i.arity

/-- R71: the canonical instruction word. An instruction's parameter words are memory words of their own (R69); `assemble`
lays them out. -/
def encode (i : Instr) : Word :=
  wrap (i.opcode + 100 * i.mode0.toDigit + 1000 * i.mode1.toDigit + 10000 * i.mode2.toDigit)

/-- R76: the mode of an assembler operand. -/
def Operand.mode : Operand → Mode
  | .position _ => .position
  | .immediate _ => .immediate

/-- R69, R76: the parameter word of an assembler operand, taken as it stands. -/
def Operand.param : Operand → Word
  | .position a => a
  | .immediate v => v

/-- R76: the instruction of an assembler line; unused mode digits are zero. A DATA line has none. -/
def AsmLine.instr : AsmLine → Option Instr
  | .add a b d => some (.add a.mode b.mode d.mode)
  | .mul a b d => some (.mul a.mode b.mode d.mode)
  | .inp d => some (.inp d.mode .position .position)
  | .out a => some (.out a.mode .position .position)
  | .jt c t => some (.jt c.mode t.mode .position)
  | .jf c t => some (.jf c.mode t.mode .position)
  | .lt a b d => some (.lt a.mode b.mode d.mode)
  | .eq a b d => some (.eq a.mode b.mode d.mode)
  | .hlt => some (.hlt .position .position .position)
  | .data _ => none

/-- R76: the operands of an assembler line, in slot order. -/
def AsmLine.operands : AsmLine → List Operand
  | .add a b d | .mul a b d | .lt a b d | .eq a b d => [a, b, d]
  | .jt c t | .jf c t => [c, t]
  | .inp a | .out a => [a]
  | .hlt | .data _ => []

/-- R76: the literal words of a DATA line. -/
def AsmLine.literals : AsmLine → List Word
  | .data ws => ws
  | .add _ _ _ | .mul _ _ _ | .lt _ _ _ | .eq _ _ _ | .jt _ _ | .jf _ _ | .inp _ | .out _ | .hlt => []

/-- R68, R76: the words of one assembler line: the canonical instruction word, then the parameter words in slot order; or
the literal words of a DATA line. -/
def assemble (l : AsmLine) : List Word :=
  match l.instr with
  | some i => encode i :: l.operands.map Operand.param
  | none => l.literals

/-- R75, R76: the words of a program text, token `i` for address `i`. -/
def assembleProgram (ls : List AsmLine) : List Word := ls.flatMap assemble

/-- The words of an instruction whose bits are `w`: the first word is bits 63..0, the next bits 127..64, and so on up to the
longest instruction's four words (R60). Bits from `nbits` on are 0. -/
def tableWords (nbits w : Nat) : List Word :=
  (List.range 4).map fun k => BitVec.ofNat 64 (w % 2 ^ nbits / 2 ^ (64 * k))

/-- The instruction the decoder reads from an instruction whose bits are `w`; it looks at the first word alone (R82). -/
def decodeTableWord (nbits w : Nat) : Option Instr :=
  (tableWords nbits w).head?.bind fun iw => (decode iw).toOption

end Sys2Proof
end

