-- ==== Sys2Proof/Machine/State.lean ====
section
/-! DEFINITION. The state of one machine (10_state.md), the reasons its step stops, and the state after reset. -/

namespace Sys2Proof.Machine

/-- R23: the machine state. -/
inductive RunState where
  | idle
  | running
  | halted
deriving DecidableEq, Repr

/-- R24, R150: the four kinds of fault the core raises. -/
inductive FaultKind where
  | invalidOpcode
  | invalidParameterMode
  | inputExhausted
  | negativeAddress
deriving DecidableEq, Repr

/-- R24: what `raise` is told: the kind of the fault and its payload, before the pc is added to it. -/
structure Raised where
  kind : FaultKind
  value : Word
  slot : Option Slot
deriving DecidableEq, Repr

/-- R24: the fault record. `fpc` is the pc at the start of the faulting cycle. -/
structure FaultRecord where
  kind : FaultKind
  fpc : Word
  value : Word
  slot : Option Slot
deriving DecidableEq, Repr

/-- R41: one memory cell, a word at an address. The unit of addressing is the word; there are no bytes (R46). -/
abbrev Cell := Nat × Word

/-- R29, R57: the Memory Store: the cells that do not hold the value of an unwritten address, addresses strictly rising. -/
abbrev Memory := List Cell

/-- R30, R110: the input port: the words it has not yet delivered, and whether it can answer now. `ready` is true in the
closed model; while it is false the port answers NotReady. -/
structure InPort where
  seq : List Word
  ready : Bool
deriving DecidableEq, Repr

/-- R31, R111: the output port: the words it has received, first one first, and whether it accepts now. `ready` is true in
the closed model; while it is false the port answers NotReady. -/
structure OutPort where
  seq : List Word
  ready : Bool
deriving DecidableEq, Repr

/-- R20: the six items of architectural state, and nothing else. -/
structure State where
  /-- R21 -/
  pc : Word
  /-- R23 -/
  runState : RunState
  /-- R24 -/
  fault : Option FaultRecord
  /-- R29, the spec's `M` -/
  mem : Memory
  /-- R30, the spec's `in_seq` with the port it belongs to -/
  inPort : InPort
  /-- R31, the spec's `out_seq` with the port it belongs to -/
  outPort : OutPort
deriving DecidableEq, Repr

/-- R16: the effective addresses of the three slots, transient values of one cycle. -/
structure Eas where
  ea0 : Word
  ea1 : Word
  ea2 : Word
deriving DecidableEq, Repr

/-- R110: the three answers of the input port. -/
inductive InAnswer where
  | value (v : Word)
  | exhausted
  | notReady
deriving DecidableEq, Repr

/-- R111: the two answers of the output port. -/
inductive OutAnswer where
  | accepted
  | notReady
deriving DecidableEq, Repr

/-- R172: where a run stands, by the state alone. -/
inductive RunStatus where
  | notStarted
  | notEnded
  | cleanEnd
  | errorTerminal
deriving DecidableEq, Repr

/-- What the host (R180 to R186) and the environment of an open model (R174) do to the machine between its cycles. -/
inductive Event where
  | reset
  | load (tokens : List Word)
  | supply (inputs : List Word)
  | start
  | inReady (b : Bool)
  | outReady (b : Bool)
deriving DecidableEq, Repr

/-- Why a step answers no next state. No instruction stops this way: the faults of R150 are NEXT states with the fault
record written (R160). These three name the states in which the core has no step (R80, R172). -/
inductive Fault where
  /-- Raised by `step` while `run_state` is Idle (R182). Safe: the hardware has no step there either. -/
  | notStarted
  /-- Raised by `step` once `run_state` is Halted (R140, R172). Safe: the hardware has no step there either. -/
  | cleanEnd
  /-- Raised by `step` once a fault is recorded (R160, R172). Safe: the hardware has no step there either. -/
  | errorTerminal
deriving DecidableEq, Repr

/-- Why an instruction has no meaning in the model. -/
inductive Refusal where
  /-- For an instruction without a meaning; no arm of `exec` raises it. Safe: it would only stop. -/
  | notModelled (mnemonic : String)
deriving DecidableEq, Repr

/-- R34, R180: the machine right after reset, before anything is loaded: the three core registers as R34 gives them, no
word of memory written, nothing in either port. The memory and the empty sequences are the model's choice (log entry 5), the
ready ports are the closed model (log entry 6). -/
def State.reset : State where
  pc := 0
  runState := .idle
  fault := none
  mem := []
  inPort := { seq := [], ready := true }
  outPort := { seq := [], ready := true }

end Sys2Proof.Machine
end

