-- ==== Sys2Proof/Machine/Ops.lean ====
section
/-! DEFINITION. The named operations over memory, the program counter, the fault record and the ports, and the events the
host and the environment raise between cycles. -/

namespace Sys2Proof.Machine

/-- R44: what an address that nothing has written reads as. -/
def unwritten : Word := 0

/-- R29: the word at an address. -/
def Memory.read : Memory → Nat → Word
  | [], _ => unwritten
  | (k, w) :: t, a => if k = a then w else Memory.read t a

/-- R43: `M[a] <- v`. The canonical form is kept: a word equal to what an unwritten address reads as is not listed. -/
def Memory.write : Memory → Nat → Word → Memory
  | [], a, v => if v = unwritten then [] else [(a, v)]
  | (k, w) :: t, a, v =>
    if a < k then (if v = unwritten then (k, w) :: t else (a, v) :: (k, w) :: t)
    else if a = k then (if v = unwritten then t else (a, v) :: t)
    else (k, w) :: Memory.write t a v

/-- R29, R41, R57: the canonical form: addresses strictly rising, every listed word other than the unwritten one, every
address valid. -/
abbrev Memory.wf (m : Memory) : Prop :=
  m.Pairwise (fun x y => x.1 < y.1) ∧ ∀ c ∈ m, c.2 ≠ unwritten ∧ c.1 < Config.addrLimit

/-- R24, R154: the payload of `NegativeAddress(a)`. -/
def negativeAddress (a : Word) : Raised := { kind := .negativeAddress, value := a, slot := none }

/-- R24, R153: the payload of `InputExhausted()`. -/
def inputExhausted : Raised := { kind := .inputExhausted, value := 0, slot := none }

/-- R24, R151: the payload of `InvalidOpcode(v)`. -/
def invalidOpcode (v : Word) : Raised := { kind := .invalidOpcode, value := v, slot := none }

/-- R24, R152: the payload of `InvalidParameterMode(v, i)`. -/
def invalidParameterMode (v : Word) (i : Slot) : Raised := { kind := .invalidParameterMode, value := v, slot := some i }

/-- R42: `MemRead(a, 1)`. -/
def memRead (a : Word) (s : State) : Except Raised Word :=
  if a.toInt < 0 then .error (negativeAddress a) else .ok (s.mem.read a.toNat)

/-- R81: the instruction word. -/
def fetch (s : State) : Except Raised Word := memRead s.pc s

/-- R43: `MemWrite(a, 1, v)`. -/
def memWrite (a v : Word) (s : State) : Except Raised State :=
  if a.toInt < 0 then .error (negativeAddress a) else .ok { s with mem := s.mem.write a.toNat v }

/-- R22, R92: `pc <- wrap_W(pc + n)`. -/
def State.advance (s : State) (n : Nat) : State := { s with pc := wrap (s.pc.toInt + n) }

/-- R22, R91: `pc <- dest`, the absolute overwrite of a taken jump. -/
def State.jump (s : State) (dest : Word) : State := { s with pc := dest }

/-- R160: taking a fault. The record is written if none stands, with the pc of the cycle; nothing else changes. There is no
return from it (R165). -/
def State.raise (s : State) (r : Raised) : State :=
  match s.fault with
  | none => { s with fault := some { kind := r.kind, fpc := s.pc, value := r.value, slot := r.slot } }
  | some _ => s

/-- R52, R93, R161: how a cycle ends: with all of its effects, or with the fault record alone. -/
def State.conclude (s : State) : Except Raised State → State
  | .ok t => t
  | .error r => s.raise r

/-- R110: `InNext()`: the port's answer and the state with the port moved past what it delivered. -/
def inNext (s : State) : InAnswer × State :=
  if s.inPort.ready then
    match s.inPort.seq with
    | v :: rest => (.value v, { s with inPort := { s.inPort with seq := rest } })
    | [] => (.exhausted, s)
  else (.notReady, s)

/-- R111: `OutEmit(v)`: the port's answer and the state with `v` taken by the port if it accepts. -/
def outEmit (v : Word) (s : State) : OutAnswer × State :=
  if s.outPort.ready then (.accepted, { s with outPort := { s.outPort with seq := s.outPort.seq ++ [v] } })
  else (.notReady, s)

/-- R180, R181: the reset event: the three core registers; memory and the ports are outside the core and stay. -/
def State.resetEvent (s : State) : State := { s with pc := 0, runState := .idle, fault := none }

/-- R183, R184: the start event; ignored unless Idle. -/
def State.start (s : State) : State :=
  if s.runState = .idle then { s with runState := .running } else s

/-- R186: the cells of a program text whose first token goes to address `i`. -/
def Memory.ofTokens (i : Nat) : List Word → Memory
  | [] => []
  | v :: rest =>
    if Config.addrLimit ≤ i then []
    else if v = unwritten then Memory.ofTokens (i + 1) rest
    else (i, v) :: Memory.ofTokens (i + 1) rest

/-- R181, R182, R186: the loader's event: address `i` holds token `i`, every other address reads 0. The loader acts only while
the core is Idle (log entry 9). -/
def State.load (s : State) (tokens : List Word) : State :=
  if s.runState = .idle then { s with mem := Memory.ofTokens 0 tokens } else s

/-- R181, R185: the host supplies a new input sequence and an empty output sequence before start (log entry 9). -/
def State.supply (s : State) (inputs : List Word) : State :=
  if s.runState = .idle then
    { s with inPort := { s.inPort with seq := inputs }, outPort := { s.outPort with seq := [] } }
  else s

/-- R185: the boot order: reset, load, supply the input, start. -/
def State.launch (s : State) (tokens inputs : List Word) : State := (((s.resetEvent.load tokens).supply inputs).start)

/-- R110, R174: the environment of an open model lets the input port answer, or hold, from now on. -/
def State.setInReady (s : State) (b : Bool) : State := { s with inPort := { s.inPort with ready := b } }

/-- R111, R174: the environment of an open model lets the output port accept, or hold, from now on. -/
def State.setOutReady (s : State) (b : Bool) : State := { s with outPort := { s.outPort with ready := b } }

/-- R172: where a run stands. A recorded fault counts first; with Idle or Halted it stands in no reachable state. -/
def State.status (s : State) : RunStatus :=
  match s.fault, s.runState with
  | some _, _ => .errorTerminal
  | none, .idle => .notStarted
  | none, .running => .notEnded
  | none, .halted => .cleanEnd

/-- Words written at an address and after it; a word whose address would not be valid is left out. -/
def Memory.place (m : Memory) (a : Nat) : List Word → Memory
  | [] => m
  | v :: rest => if a < Config.addrLimit then Memory.place (m.write a v) (a + 1) rest else m

/-- The words stand where the next fetch reads, the core is running and no fault is recorded. A negative pc becomes 0. -/
def State.withProgramAtPc (s : State) (ws : List Word) : State :=
  let pc := if s.pc.toInt < 0 then 0 else s.pc
  { s with pc := pc, runState := .running, fault := none, mem := s.mem.place pc.toNat ws }

/-- The event, applied. -/
def State.apply (s : State) : Event → State
  | .reset => s.resetEvent
  | .load tokens => s.load tokens
  | .supply inputs => s.supply inputs
  | .start => s.start
  | .inReady b => s.setInReady b
  | .outReady b => s.setOutReady b

end Sys2Proof.Machine
end

