-- ==== Sys2Proof/Machine/Operands.lean ====
section
/-! DEFINITION. The address-resolution unit (40_cycle_decode_addressing.md R84 to R88), and the part of an instruction cycle
every operation shares after its decode. -/

namespace Sys2Proof.Machine

/-- R84: the parameter address of slot `i`. -/
def paramAddr (pc : Word) (i : Slot) : Word := wrap (pc.toInt + 1 + i.val)

/-- R85: the effective address of slot `i` in its mode. A negative one is no fault (only an access through it is). -/
def resolveSlot (i : Slot) (m : Mode) (s : State) : Except Raised Word :=
  match m with
  | .position => memRead (paramAddr s.pc i) s
  | .immediate => .ok (paramAddr s.pc i)

/-- R86, R87: all three slots, in order, for every instruction. -/
def resolve (m0 m1 m2 : Mode) (s : State) : Except Raised Eas :=
  match resolveSlot 0 m0 s with
  | .error r => .error r
  | .ok ea0 =>
    match resolveSlot 1 m1 s with
    | .error r => .error r
    | .ok ea1 =>
      match resolveSlot 2 m2 s with
      | .error r => .error r
      | .ok ea2 => .ok { ea0 := ea0, ea1 := ea1, ea2 := ea2 }

/-- R86: the slots a cycle resolves before its decode fails: the first of them that faults, if one does. -/
def firstFault : List (Slot × Mode) → State → Option Raised
  | [], _ => none
  | (i, m) :: rest, s =>
    match resolveSlot i m s with
    | .error r => some r
    | .ok _ => firstFault rest s

/-- R151, R152: what a failed decode raises. -/
def decodeRaised : DecodeError → Raised
  | .invalidParameterMode _ i v => invalidParameterMode v i
  | .invalidOpcode _ v => invalidOpcode v

/-- R80, R162: the fault of a cycle whose decode fails: that of an earlier slot's parameter fetch, or else the decode's. -/
def decodeFault (e : DecodeError) (s : State) : Raised :=
  (firstFault e.earlier s).getD (decodeRaised e)

/-- R80: the cycle after the decode: resolve the three slots, run the operation on the effective addresses, conclude. -/
def runOperation (m0 m1 m2 : Mode) (op : Eas → State → Except Raised State) (s : State) :
    Host.Outcome State Fault Refusal :=
  match resolve m0 m1 m2 s with
  | .error r => .next (s.conclude (.error r))
  | .ok ea => .next (s.conclude (op ea s))

/-- R85: the effective address of slot `i` where its parameter word can be read. -/
def effectiveAddr (i : Slot) (m : Mode) (s : State) : Word :=
  match m with
  | .position => s.mem.read (paramAddr s.pc i).toNat
  | .immediate => paramAddr s.pc i

/-- R16: the effective addresses of an instruction whose slots resolve. -/
def effectiveAddrs (m0 m1 m2 : Mode) (s : State) : Eas :=
  { ea0 := effectiveAddr 0 m0 s, ea1 := effectiveAddr 1 m1 s, ea2 := effectiveAddr 2 m2 s }

/-- R85, R86: slot `i` resolves without a fault: it is Immediate, or its parameter address is not negative. -/
abbrev slotReadable (i : Slot) (m : Mode) (s : State) : Prop := m = .position → 0 ≤ (paramAddr s.pc i).toInt

/-- R87: all three slots resolve without a fault. -/
abbrev slotsReadable (m0 m1 m2 : Mode) (s : State) : Prop :=
  slotReadable 0 m0 s ∧ slotReadable 1 m1 s ∧ slotReadable 2 m2 s

/-- R69, R76: the value an assembler operand denotes: the word at `a` for `[a]`, `v` itself for `#v`. -/
def operandValue (o : Operand) (s : State) : Word :=
  match o with
  | .position a => s.mem.read a.toNat
  | .immediate v => v

/-- R76, R88: the address of an assembler operand in slot `i`: `a` for `[a]`, the parameter word's own address for `#v`. -/
def operandAddr (i : Slot) (o : Operand) (s : State) : Word :=
  match o with
  | .position a => a
  | .immediate _ => paramAddr s.pc i

end Sys2Proof.Machine
end

