-- ==== Sys2Proof/Machine/Arithmetic.lean ====
section
/-! DEFINITION. ADD and MUL (41_arithmetic.md), with the data path the four ALU instructions share (R100). -/

namespace Sys2Proof.Machine

/-- R100: read `ea[0]`, read `ea[1]`, compute, write `ea[2]`, advance by 4. Both reads see the memory before the write. -/
def aluDataPath (f : Word → Word → Word) (ea : Eas) (s : State) : Except Raised State :=
  match memRead ea.ea0 s with
  | .error r => .error r
  | .ok a =>
    match memRead ea.ea1 s with
    | .error r => .error r
    | .ok b =>
      match memWrite ea.ea2 (f a b) s with
      | .error r => .error r
      | .ok t => .ok (t.advance 4)

/-- R103: `add(a, b) = wrap_W(a + b)`. -/
def aluAdd (a b : Word) : Word := wrap (a.toInt + b.toInt)

/-- R103: `mul(a, b) = wrap_W(a * b)`. -/
def aluMul (a b : Word) : Word := wrap (a.toInt * b.toInt)

/-- R101 -/
def opAdd (ea : Eas) (s : State) : Except Raised State := aluDataPath aluAdd ea s

/-- R102 -/
def opMul (ea : Eas) (s : State) : Except Raised State := aluDataPath aluMul ea s

/-- `ADD`, R101. -/
def execAdd (m0 m1 m2 : Mode) (s : State) : Host.Outcome State Fault Refusal := runOperation m0 m1 m2 opAdd s

/-- `MUL`, R102. -/
def execMul (m0 m1 m2 : Mode) (s : State) : Host.Outcome State Fault Refusal := runOperation m0 m1 m2 opMul s

end Sys2Proof.Machine
end

