-- ==== Sys2Proof/Machine/Flags.lean ====
section
/-! DEFINITION. The machine has no flags, condition codes or predicates (10_state.md R27). What it computes in their place
is here: the results of the ALU's comparison half (44_comparison.md R130 to R132) and the conditions of the jump-target
unit (43_jumps.md R120). -/

namespace Sys2Proof.Machine

/-- R130: the word a comparison writes: 1 when it holds, 0 when it does not. -/
def truthWord (b : Bool) : Word := if b then 1 else 0

/-- R131: signed less-than. -/
def aluLt (a b : Word) : Word := truthWord (decide (a.toInt < b.toInt))

/-- R132: equality of whole words. -/
def aluEq (a b : Word) : Word := truthWord (decide (a = b))

/-- R120: `taken` for jump-if-true: any word other than zero is true. -/
def takenIfTrue (c : Word) : Bool := decide (c ≠ 0)

/-- R120: `taken` for jump-if-false. -/
def takenIfFalse (c : Word) : Bool := decide (c = 0)

end Sys2Proof.Machine
end

