-- ==== Sys2Proof/Machine/Comparison.lean ====
section
/-! DEFINITION. LT and EQ (44_comparison.md), over the ALU data path of R100. -/

namespace Sys2Proof.Machine

/-- R131 -/
def opLt (ea : Eas) (s : State) : Except Raised State := aluDataPath aluLt ea s

/-- R132 -/
def opEq (ea : Eas) (s : State) : Except Raised State := aluDataPath aluEq ea s

/-- `LT`, R131. -/
def execLt (m0 m1 m2 : Mode) (s : State) : Host.Outcome State Fault Refusal := runOperation m0 m1 m2 opLt s

/-- `EQ`, R132. -/
def execEq (m0 m1 m2 : Mode) (s : State) : Host.Outcome State Fault Refusal := runOperation m0 m1 m2 opEq s

end Sys2Proof.Machine
end

