-- ==== Sys2Proof/Machine/Halt.lean ====
section
/-! DEFINITION. HLT (45_halt.md). -/

namespace Sys2Proof.Machine

/-- R140: `run_state <- Halted`; the pc keeps the address of the halt word. The effective addresses are ignored. -/
def opHlt (_ : Eas) (s : State) : Except Raised State := .ok { s with runState := .halted }

/-- `HLT`, R140. -/
def execHlt (m0 m1 m2 : Mode) (s : State) : Host.Outcome State Fault Refusal := runOperation m0 m1 m2 opHlt s

end Sys2Proof.Machine
end

