-- ==== Sys2Proof/Machine/InputOutput.lean ====
section
/-! DEFINITION. IN and OUT (42_io.md). A hold (R174) is the state unchanged: the same instruction is attempted again. -/

namespace Sys2Proof.Machine

/-- R112: the destination is checked before the port is asked, so a faulting `IN` consumes nothing. -/
def opIn (ea : Eas) (s : State) : Except Raised State :=
  if ea.ea0.toInt < 0 then .error (negativeAddress ea.ea0)
  else
    match inNext s with
    | (.value v, t) =>
      match memWrite ea.ea0 v t with
      | .error r => .error r
      | .ok u => .ok (u.advance 2)
    | (.exhausted, _) => .error inputExhausted
    | (.notReady, _) => .ok s

/-- R113 -/
def opOut (ea : Eas) (s : State) : Except Raised State :=
  match memRead ea.ea0 s with
  | .error r => .error r
  | .ok v =>
    match outEmit v s with
    | (.accepted, t) => .ok (t.advance 2)
    | (.notReady, _) => .ok s

/-- `IN`, R112. -/
def execIn (m0 m1 m2 : Mode) (s : State) : Host.Outcome State Fault Refusal := runOperation m0 m1 m2 opIn s

/-- `OUT`, R113. -/
def execOut (m0 m1 m2 : Mode) (s : State) : Host.Outcome State Fault Refusal := runOperation m0 m1 m2 opOut s

end Sys2Proof.Machine
end

