-- ==== Sys2Proof/Machine/Jumps.lean ====
section
/-! DEFINITION. JT and JF (43_jumps.md) and the jump-target unit (R120). -/

namespace Sys2Proof.Machine

/-- R91, R120: read the condition; if the jump is taken, the new pc is the word at `ea[1]`, which is read only then;
otherwise the pc advances by 3. The choice is by `taken` alone. -/
def jumpPath (taken : Word → Bool) (ea : Eas) (s : State) : Except Raised State :=
  match memRead ea.ea0 s with
  | .error r => .error r
  | .ok c =>
    if taken c then
      match memRead ea.ea1 s with
      | .error r => .error r
      | .ok dest => .ok (s.jump dest)
    else .ok (s.advance 3)

/-- R121 -/
def opJt (ea : Eas) (s : State) : Except Raised State := jumpPath takenIfTrue ea s

/-- R122 -/
def opJf (ea : Eas) (s : State) : Except Raised State := jumpPath takenIfFalse ea s

/-- `JT`, R121. -/
def execJt (m0 m1 m2 : Mode) (s : State) : Host.Outcome State Fault Refusal := runOperation m0 m1 m2 opJt s

/-- `JF`, R122. -/
def execJf (m0 m1 m2 : Mode) (s : State) : Host.Outcome State Fault Refusal := runOperation m0 m1 m2 opJf s

end Sys2Proof.Machine
end

