-- ==== Sys2Proof/Machine/Dispatch.lean ====
section
/-! DEFINITION. Dispatch (40_cycle_decode_addressing.md R89): one arm per row of the opcode table. -/

namespace Sys2Proof.Machine

def exec (i : Instr) (s : State) : Host.Outcome State Fault Refusal :=
  match i with
  | .add m0 m1 m2 => Sys2Proof.Machine.execAdd m0 m1 m2 s
  | .mul m0 m1 m2 => Sys2Proof.Machine.execMul m0 m1 m2 s
  | .inp m0 m1 m2 => Sys2Proof.Machine.execIn m0 m1 m2 s
  | .out m0 m1 m2 => Sys2Proof.Machine.execOut m0 m1 m2 s
  | .jt m0 m1 m2 => Sys2Proof.Machine.execJt m0 m1 m2 s
  | .jf m0 m1 m2 => Sys2Proof.Machine.execJf m0 m1 m2 s
  | .lt m0 m1 m2 => Sys2Proof.Machine.execLt m0 m1 m2 s
  | .eq m0 m1 m2 => Sys2Proof.Machine.execEq m0 m1 m2 s
  | .hlt m0 m1 m2 => Sys2Proof.Machine.execHlt m0 m1 m2 s

end Sys2Proof.Machine
end

