-- ==== Sys2Proof/Machine/Step.lean ====
section
/-! DEFINITION. One step of the core: one instruction cycle (40_cycle_decode_addressing.md R80). -/

namespace Sys2Proof.Machine

/-- R80: the core has a step exactly when it is running and no fault is recorded. The step fetches, decodes and executes; a
fault of the fetch or the decode is taken as R160 says. -/
def step (s : State) : Host.Outcome State Fault Refusal :=
  match s.status with
  | .notStarted => .fault .notStarted
  | .cleanEnd => .fault .cleanEnd
  | .errorTerminal => .fault .errorTerminal
  | .notEnded =>
    match fetch s with
    | .error r => .next (s.raise r)
    | .ok iw =>
      match decode iw with
      | .error e => .next (s.raise (decodeFault e s))
      | .ok i => exec i s

/-- The state in which the very next step fetches and runs the instruction whose bits are `w`: its words stand at the pc
and after it, and the core is running with no fault. A negative pc, at which no word stands, becomes 0. -/
def State.withFetchWord (s : State) (nbits w : Nat) : State := s.withProgramAtPc (tableWords nbits w)

end Sys2Proof.Machine
end

