-- ==== Sys2Proof/Machine/Cycle.lean ====
section
/-! DEFINITION. The whole instruction cycle once more, line by line as the pseudocode of 40_cycle_decode_addressing.md R80
has it, over the raw fields of the instruction word. The step is stated to agree with it. -/

namespace Sys2Proof.Machine

/-- R80: one turn of the loop over the slots: the mode check of slot `i`, then its resolution. -/
def cycleSlot (iw : Word) (i : Slot) (s : State) : Except Raised Word :=
  if modeField iw i ≠ 0 ∧ modeField iw i ≠ 1 then .error (invalidParameterMode (wrap (modeField iw i)) i)
  else if modeField iw i = 0 then memRead (paramAddr s.pc i) s
  else .ok (paramAddr s.pc i)

/-- R80, R89: the case on the opcode. -/
def cycleCase (opcode : Int) (ea : Eas) (s : State) : Except Raised State :=
  if opcode = 1 then opAdd ea s
  else if opcode = 2 then opMul ea s
  else if opcode = 3 then opIn ea s
  else if opcode = 4 then opOut ea s
  else if opcode = 5 then opJt ea s
  else if opcode = 6 then opJf ea s
  else if opcode = 7 then opLt ea s
  else if opcode = 8 then opEq ea s
  else if opcode = 99 then opHlt ea s
  else .error (invalidOpcode (wrap opcode))

/-- R80: the cycle, from the fetch to the effects, or the fault it raises. -/
def cycleBody (s : State) : Except Raised State := do
  let iw ← memRead s.pc s
  let ea0 ← cycleSlot iw 0 s
  let ea1 ← cycleSlot iw 1 s
  let ea2 ← cycleSlot iw 2 s
  cycleCase (trem iw.toInt 100) { ea0 := ea0, ea1 := ea1, ea2 := ea2 } s

/-- R80: the next state, where the core has a step. -/
def cycle (s : State) : Option State :=
  if s.runState = .running ∧ s.fault = none then some (s.conclude (cycleBody s)) else none

end Sys2Proof.Machine
end

