-- ==== Sys2Proof/Safety.lean ====
section
/-! DEFINITION. What counts as a safe state, and the invariant of the machine that claims use. -/

namespace Sys2Proof.Machine

/-- R172: a state that is not the error-terminal end of a run. -/
def State.safe (s : State) : Bool := decide (s.status ≠ .errorTerminal)

/-- R80: the core has a step. -/
abbrev State.canStep (s : State) : Prop := s.runState = .running ∧ s.fault = none

/-- R110, R111: the closed model, in which no port ever answers NotReady. -/
abbrev State.closed (s : State) : Prop := s.inPort.ready = true ∧ s.outPort.ready = true

/-- R24, R151: what a fault record of each kind can hold. -/
abbrev FaultRecord.wf (r : FaultRecord) : Prop :=
  match r.kind with
  | .invalidOpcode =>
    r.slot = none ∧ -99 ≤ r.value.toInt ∧ r.value.toInt ≤ 99 ∧ ∀ n ∈ Config.opcodes, r.value.toInt ≠ (n : Int)
  | .invalidParameterMode =>
    r.slot ≠ none ∧ -9 ≤ r.value.toInt ∧ r.value.toInt ≤ 9 ∧ ∀ n ∈ Config.modes, r.value.toInt ≠ (n : Int)
  | .inputExhausted => r.slot = none ∧ r.value = 0
  | .negativeAddress => r.slot = none ∧ r.value.toInt < 0

/-- The invariant: memory is in canonical form (R29, R57); a recorded fault is a legal record of the standing pc, in the
running state (R24, R93, R160, R172); before start the pc is still the entry address 0 (R34, R182). -/
structure State.Inv (s : State) : Prop where
  memory : s.mem.wf
  record : ∀ r, s.fault = some r → s.runState = .running ∧ r.fpc = s.pc ∧ r.wf
  entry : s.runState = .idle → s.pc = 0

end Sys2Proof.Machine
end

