-- ==== Sys2Proof/Certificates/Slice0/Obligations.lean ====
section
/-! DEFINITION. The statements for the provers. Each docstring names the rule of spec/ it formalises. Where a clause rests on
a choice of the model, the docstring names the log entry. -/

open Sys2Proof Sys2Proof.Machine

/-! ## Reset, start, host events -/

/-- R34: after reset pc = 0, Idle, no fault, and reset writes neither memory nor the ports; the launch values of memory and
of the two sequences; and the state a machine begins in. That `State.reset` has a memory of zeros and an empty `out_seq` is
the model's choice (log entry 5): R34 gives launch values only. -/
def Obligations.ResetAndLaunchValues : Prop :=
  (∀ s : State, s.resetEvent.pc = 0 ∧ s.resetEvent.runState = .idle ∧ s.resetEvent.fault = none ∧
    s.resetEvent.mem = s.mem ∧ s.resetEvent.inPort = s.inPort ∧ s.resetEvent.outPort = s.outPort) ∧
  (State.reset.pc = 0 ∧ State.reset.runState = .idle ∧ State.reset.fault = none ∧
    (∀ a, State.reset.mem.read a = 0) ∧ State.reset.outPort.seq = []) ∧
  (∀ (s : State) (tokens inputs : List Word) (a : Nat), a < Config.addrLimit →
    (s.launch tokens inputs).mem.read a = tokens.getD a 0 ∧ (s.launch tokens inputs).inPort.seq = inputs ∧
    (s.launch tokens inputs).outPort.seq = [])

/-- R180, R165: reset sets the three core registers; it is the only event that changes a recorded fault and the only way out
of Halted; and a core with a recorded fault, or halted, has no step that could. -/
def Obligations.OnlyResetLeavesFaultOrHalt : Prop :=
  (∀ s : State, s.resetEvent = { s with pc := 0, runState := .idle, fault := none }) ∧
  (∀ (s : State) (e : Event), s.fault ≠ none → (s.apply e).fault ≠ s.fault → e = .reset) ∧
  (∀ (s : State) (e : Event), s.runState = .halted → (s.apply e).runState ≠ .halted → e = .reset) ∧
  (∀ s t : State, step s = .next t → s.fault = none ∧ s.runState ≠ .halted)

/-- R183, R184: start takes Idle to Running and changes nothing else, the first cycle then fetches at address 0, and a start
in any other state is ignored. -/
def Obligations.StartEventEffect : Prop :=
  ∀ s : State,
    (s.runState = .idle → s.start = { s with runState := .running }) ∧
    (s.runState ≠ .idle → s.start = s) ∧
    (s.Inv → s.runState = .idle → s.start.pc = 0 ∧ fetch s.start = .ok (s.mem.read 0))

/-- R185, R186, R187 (R187 is the spec's own derivation): a launched core fetches the first token first; an empty program
ends at once with InvalidOpcode of value 0 at address 0. -/
def Obligations.LaunchedCoreRunsFirstToken : Prop :=
  ∀ (s : State) (tokens inputs : List Word),
    (s.launch tokens inputs).canStep ∧ (s.launch tokens inputs).pc = 0 ∧
    fetch (s.launch tokens inputs) = .ok (tokens.getD 0 0) ∧
    step (s.launch [] inputs) = .next { s.launch [] inputs with
      fault := some { kind := .invalidOpcode, fpc := 0, value := 0, slot := none } }

/-- R23: run_state is written by reset, by start and by opcode 99, and by nothing else. -/
def Obligations.RunStateWriters : Prop :=
  (∀ (s : State) (e : Event), (s.apply e).runState ≠ s.runState → e = .reset ∨ e = .start) ∧
  (∀ s t : State, step s = .next t → t.runState ≠ s.runState →
    t.runState = .halted ∧ ∃ m0 m1 m2, decode (s.mem.read s.pc.toNat) = .ok (.hlt m0 m1 m2))

/-- R29: memory is written by the loader before start, and afterwards only by the writes of ADD, MUL, LT, EQ and IN. That the
loader's event is ignored unless Idle is log entry 9. -/
def Obligations.MemoryWriters : Prop :=
  (∀ (s : State) (e : Event), (s.apply e).mem ≠ s.mem → s.runState = .idle ∧ ∃ tokens, e = .load tokens) ∧
  (∀ s t : State, step s = .next t → t.mem ≠ s.mem →
    ∃ i, decode (s.mem.read s.pc.toNat) = .ok i ∧ (i.opcode = 1 ∨ i.opcode = 2 ∨ i.opcode = 3 ∨ i.opcode = 7 ∨ i.opcode = 8))

/-! ## The invariant -/

/-- The invariant holds at reset. The memory of `State.reset` is the model's choice (log entry 5). -/
def Obligations.ResetMeetsInvariant : Prop := State.reset.Inv

/-- Every step keeps the invariant: memory in canonical form (log entry 1), a recorded fault a legal record of the standing pc in the
running state, the entry address 0 before start. -/
def Obligations.StepKeepsInvariant : Prop := ∀ s t : State, s.Inv → step s = .next t → t.Inv

/-- Every event of the host and of the environment keeps the invariant. -/
def Obligations.EventsKeepInvariant : Prop := ∀ (s : State) (e : Event), s.Inv → (s.apply e).Inv

/-- R172 (the spec's own derivation): the four standings of a run by the state alone; Halted with a fault does not occur. -/
def Obligations.RunStatusByState : Prop :=
  ∀ s : State, s.Inv →
    (s.status = .cleanEnd ↔ s.runState = .halted) ∧ (s.status = .errorTerminal ↔ s.fault ≠ none) ∧
    (s.status = .notStarted ↔ s.runState = .idle) ∧ (s.status = .notEnded ↔ s.runState = .running ∧ s.fault = none) ∧
    ¬ (s.runState = .halted ∧ s.fault ≠ none)

/-! ## The step -/

/-- R80, R182: the core has a step exactly when it is running with no fault; elsewhere the step stops. The names of the stops
are the model's choice (log entry 4). -/
def Obligations.StepExactlyWhenRunning : Prop :=
  (∀ s : State, (∃ t, step s = .next t) ↔ s.canStep) ∧
  (∀ s : State, s.fault ≠ none → step s = .fault .errorTerminal) ∧
  (∀ s : State, s.fault = none → s.runState = .halted → step s = .fault .cleanEnd) ∧
  (∀ s : State, s.fault = none → s.runState = .idle → step s = .fault .notStarted)

/-- No instruction stops the model: in every state every instruction answers a next state (a fault is a recorded state, R160,
log entry 3; a hold too is a next state, log entry 7). -/
def Obligations.NoInstructionStops : Prop := ∀ (i : Instr) (s : State), ∃ t, exec i s = .next t

/-- R80: the step, made of decoder and instruction meanings, is the instruction cycle of the spec's pseudocode, with its order
of mode checks, parameter fetches, dispatch and operation (R162). -/
def Obligations.StepIsTheCycle : Prop :=
  ∀ s : State, cycle s = match step s with
    | .next t => some t
    | .fault _ => none
    | .refused _ => none

/-- R80, R89: when the word at the pc decodes to an instruction, the step is that instruction's meaning and nothing more. -/
def Obligations.StepRunsDecoded : Prop :=
  ∀ (s : State) (i : Instr), s.canStep → 0 ≤ s.pc.toInt → decode (s.mem.read s.pc.toNat) = .ok i → step s = exec i s

/-- The step after withFetchWord runs the instruction whose bits were placed (log entry 8). -/
def Obligations.StepRunsPlacedWord : Prop :=
  ∀ (s : State) (nbits w : Nat) (i : Instr), s.mem.wf → decodeTableWord nbits w = some i →
    step (s.withFetchWord nbits w) = exec i (s.withFetchWord nbits w)

/-- R81: the fetch reads the one word at the pc; a negative pc raises NegativeAddress of that pc. -/
def Obligations.FetchReadsWordAtPc : Prop :=
  ∀ s : State,
    (0 ≤ s.pc.toInt → fetch s = .ok (s.mem.read s.pc.toNat)) ∧
    (s.pc.toInt < 0 → fetch s = .error (negativeAddress s.pc)) ∧
    (s.canStep → s.pc.toInt < 0 → step s = .next { s with
      fault := some { kind := .negativeAddress, fpc := s.pc, value := s.pc, slot := none } })

/-- R22, R91: a cycle that faults does not write the pc; how each instruction leaves it otherwise, when it completes and when
it is held; and an advance past the top of the address space makes the next fetch fault, at no address 0. -/
def Obligations.PcAfterInstruction : Prop :=
  (∀ s t : State, step s = .next t → t.fault ≠ none → t.pc = s.pc) ∧
  (∀ (s t : State) (i : Instr), s.canStep → 0 ≤ s.pc.toInt → decode (s.mem.read s.pc.toNat) = .ok i → step s = .next t →
    t.fault = none →
    let ea := effectiveAddrs i.mode0 i.mode1 i.mode2 s
    let c := s.mem.read ea.ea0.toNat
    t.pc = match i with
      | .add _ _ _ | .mul _ _ _ | .lt _ _ _ | .eq _ _ _ => wrap (s.pc.toInt + 4)
      | .inp _ _ _ => if s.inPort.ready = false then s.pc else wrap (s.pc.toInt + 2)
      | .out _ _ _ => if s.outPort.ready = false then s.pc else wrap (s.pc.toInt + 2)
      | .jt _ _ _ => if c ≠ 0 then s.mem.read ea.ea1.toNat else wrap (s.pc.toInt + 3)
      | .jf _ _ _ => if c = 0 then s.mem.read ea.ea1.toNat else wrap (s.pc.toInt + 3)
      | .hlt _ _ _ => s.pc) ∧
  (∀ (s : State) (n : Nat), n = 2 ∨ n = 3 ∨ n = 4 → (9223372036854775807 : Int) - n < s.pc.toInt →
    (wrap (s.pc.toInt + n)).toInt < 0 ∧
    fetch { s with pc := wrap (s.pc.toInt + n) } = .error (negativeAddress (wrap (s.pc.toInt + n))))

/-! ## Faults -/

/-- R160: what raising a fault does; after it the core has no step. -/
def Obligations.RaiseRecordsFault : Prop :=
  ∀ (s : State) (r : Raised),
    (s.fault = none → s.raise r = { s with
      fault := some { kind := r.kind, fpc := s.pc, value := r.value, slot := r.slot } }) ∧
    (s.fault ≠ none → s.raise r = s) ∧ (s.raise r).runState = s.runState ∧
    ¬ ∃ t, step (s.raise r) = .next t

/-- R161: faults are precise: a step that ends with a fault recorded changed nothing but the fault record, whose fpc is the pc
of the faulting instruction. -/
def Obligations.FaultsArePrecise : Prop :=
  ∀ s t : State, step s = .next t → t.fault ≠ none →
    ∃ r : FaultRecord, r.fpc = s.pc ∧ r.wf ∧ t = { s with fault := some r }

/-- R151: an opcode outside the table raises InvalidOpcode with the extracted opcode. -/
def Obligations.InvalidOpcodeRaised : Prop :=
  ∀ s : State, s.canStep → 0 ≤ s.pc.toInt →
    let iw := s.mem.read s.pc.toNat
    (∀ k : Slot, modeField iw k = 0 ∨ modeField iw k = 1) →
    (∀ k : Slot, modeField iw k = 0 → 0 ≤ (paramAddr s.pc k).toInt) →
    (∀ n ∈ Config.opcodes, opcodeField iw ≠ (n : Int)) →
    step s = .next { s with
      fault := some { kind := .invalidOpcode, fpc := s.pc, value := wrap (opcodeField iw), slot := none } }

/-- R152: a mode value outside 0 and 1, in a used slot or not and whatever the opcode, raises InvalidParameterMode for the
lowest such slot. -/
def Obligations.InvalidParameterModeRaised : Prop :=
  ∀ (s : State) (k : Slot), s.canStep → 0 ≤ s.pc.toInt →
    let iw := s.mem.read s.pc.toNat
    (modeField iw k ≠ 0 ∧ modeField iw k ≠ 1) →
    (∀ j : Slot, j < k → modeField iw j = 0 ∨ modeField iw j = 1) →
    (∀ j : Slot, j < k → modeField iw j = 0 → 0 ≤ (paramAddr s.pc j).toInt) →
    step s = .next { s with
      fault := some { kind := .invalidParameterMode, fpc := s.pc, value := wrap (modeField iw k), slot := some k } }

/-- R67 (the spec's decision D3): a negative instruction word faults: InvalidParameterMode if one of the digits 2, 3, 4 of its
absolute value is not zero, otherwise InvalidOpcode with a value not above 0. The pc is kept three words from the top, so
that no parameter address is negative. -/
def Obligations.NegativeWordFaults : Prop :=
  ∀ s : State, s.canStep → 0 ≤ s.pc.toInt → s.pc.toInt < 9223372036854775805 → (s.mem.read s.pc.toNat).toInt < 0 →
    let n := (s.mem.read s.pc.toNat).toInt.natAbs
    (∀ i, decode (s.mem.read s.pc.toNat) ≠ .ok i) ∧
    ∃ r : FaultRecord, step s = .next { s with fault := some r } ∧ r.fpc = s.pc ∧
      ((digit 2 n ≠ 0 ∨ digit 3 n ≠ 0 ∨ digit 4 n ≠ 0) → r.kind = .invalidParameterMode ∧ r.value.toInt < 0) ∧
      ((digit 2 n = 0 ∧ digit 3 n = 0 ∧ digit 4 n = 0) →
        r.kind = .invalidOpcode ∧ r.value.toInt = -(10 * digit 1 n + digit 0 n : Nat))

/-- R86, R87: an instruction whose slot k is the first that needs a parameter word at a negative address raises
NegativeAddress of that address, used slot or not. -/
def Obligations.UnreadableSlotRaises : Prop :=
  ∀ (i : Instr) (s : State) (k : Slot), (∀ j : Slot, j < k → slotReadable j (i.mode j) s) → i.mode k = .position →
    (paramAddr s.pc k).toInt < 0 → exec i s = .next (s.raise (negativeAddress (paramAddr s.pc k)))

/-! ## Encoding and operands -/

/-- R66, R71: the canonical word of every instruction, with any digits above the fifth, decodes to that instruction. -/
def Obligations.DecodeOfEncode : Prop :=
  ∀ (i : Instr) (k : Int), 0 ≤ k → (encode i).toInt + 100000 * k < 9223372036854775808 →
    decode (wrap ((encode i).toInt + 100000 * k)) = .ok i

/-- R66, R67, R71: a word that decodes is not negative, and its low five digits are the canonical word of its instruction. -/
def Obligations.DecodedWordIsEncoding : Prop :=
  ∀ (iw : Word) (i : Instr), decode iw = .ok i → 0 ≤ iw.toInt ∧ iw.toInt % 100000 = (encode i).toInt

/-- R71, R72, R65: the decoder accepts exactly the words that are well-formed by their decimal digits. -/
def Obligations.DecodeAcceptsWellFormed : Prop :=
  ∀ iw : Word, (∃ i, decode iw = .ok i) ↔ wordWellFormed iw = true

/-- R62: the fields of a non-negative instruction word are its decimal digits. -/
def Obligations.FieldsAreDecimalDigits : Prop :=
  ∀ iw : Word, 0 ≤ iw.toInt →
    opcodeField iw = (10 * digit 1 iw.toNat + digit 0 iw.toNat : Nat) ∧
    ∀ k : Slot, modeField iw k = (digit (2 + k.val) iw.toNat : Nat)

/-- Words of 95_test_vectors.md, section 2, decode as the vectors say. -/
def Obligations.SampleWordsDecode : Prop :=
  decode 1 = .ok (.add .position .position .position) ∧ decode 1002 = .ok (.mul .position .immediate .position) ∧
  decode 11101 = .ok (.add .immediate .immediate .immediate) ∧ decode 3 = .ok (.inp .position .position .position) ∧
  decode 105 = .ok (.jt .immediate .position .position) ∧ decode 1007 = .ok (.lt .position .immediate .position) ∧
  decode 10199 = .ok (.hlt .immediate .position .immediate) ∧
  decode 1100099 = .ok (.hlt .position .position .position) ∧
  decode 50 = .error (.invalidOpcode [(0, .position), (1, .position), (2, .position)] 50) ∧
  decode 12345 = .error (.invalidParameterMode [] 0 3) ∧
  decode (-1) = .error (.invalidOpcode [(0, .position), (1, .position), (2, .position)] (-1))

/-- R84, R85: away from the top of the address space every instruction's three slots resolve: Position to the word at
pc + 1 + i, Immediate to pc + 1 + i itself. -/
def Obligations.SlotsResolve : Prop :=
  ∀ (m0 m1 m2 : Mode) (s : State), 0 ≤ s.pc.toInt → s.pc.toInt ≤ 9223372036854775804 →
    ∃ ea : Eas, resolve m0 m1 m2 s = .ok ea ∧ ea = effectiveAddrs m0 m1 m2 s ∧
      (m0 = .position → ea.ea0 = s.mem.read (s.pc.toNat + 1)) ∧ (m0 = .immediate → ea.ea0.toInt = s.pc.toInt + 1) ∧
      (m1 = .position → ea.ea1 = s.mem.read (s.pc.toNat + 2)) ∧ (m1 = .immediate → ea.ea1.toInt = s.pc.toInt + 2) ∧
      (m2 = .position → ea.ea2 = s.mem.read (s.pc.toNat + 3)) ∧ (m2 = .immediate → ea.ea2.toInt = s.pc.toInt + 3)

/-- R76, R69, R88: where the words of an assembler line stand at the pc, the step runs the line's instruction, each operand's
effective address is the one the notation names, and reading it gives the value the notation denotes. -/
def Obligations.AssembledLineRuns : Prop :=
  ∀ (l : AsmLine) (i : Instr) (s : State), l.instr = some i → s.canStep → 0 ≤ s.pc.toInt →
    s.pc.toInt ≤ 9223372036854775804 →
    (∀ n, n < (assemble l).length → s.mem.read (s.pc.toNat + n) = (assemble l).getD n 0) →
    (assemble l).length = i.length ∧ step s = exec i s ∧
    ∀ (k : Slot) (o : Operand), l.operands[k.val]? = some o →
      i.mode k = o.mode ∧ effectiveAddr k (i.mode k) s = operandAddr k o s ∧
      s.mem.read (effectiveAddr k (i.mode k) s).toNat = operandValue o s

/-! ## Memory -/

/-- R42, R44: MemRead. -/
def Obligations.MemReadResult : Prop :=
  ∀ (a : Word) (s : State),
    (a.toInt < 0 → memRead a s = .error (negativeAddress a)) ∧
    (0 ≤ a.toInt → memRead a s = .ok (s.mem.read a.toNat)) ∧
    (0 ≤ a.toInt → (∀ c ∈ s.mem, c.1 ≠ a.toNat) → memRead a s = .ok 0)

/-- R43: MemWrite. That the written memory is canonical (`m.wf`) is about the model's own representation (log entry 1). -/
def Obligations.MemWriteResult : Prop :=
  ∀ (a v : Word) (s : State), s.mem.wf →
    (a.toInt < 0 → memWrite a v s = .error (negativeAddress a)) ∧
    (0 ≤ a.toInt → ∃ m : Memory, memWrite a v s = .ok { s with mem := m } ∧ m.wf ∧ m.read a.toNat = v ∧
      ∀ b, b ≠ a.toNat → m.read b = s.mem.read b)

/-- R57, R44, and the model's representation (log entry 1): memories in canonical form that read alike at every address are the same memory. -/
def Obligations.EqualReadsEqualMemories : Prop :=
  ∀ m n : Memory, m.wf → n.wf → (∀ a, m.read a = n.read a) → m = n

/-- R44: writing the word an address already reads as changes nothing, and writing 0 to an address undoes every earlier write
to an unwritten one. -/
def Obligations.RewriteLeavesMemory : Prop :=
  ∀ (m : Memory) (a : Nat) (v : Word), m.wf →
    m.write a (m.read a) = m ∧ (m.read a = 0 → (m.write a v).write a 0 = m)

/-- R55: the word an ALU instruction stores at the next instruction's address is the word the next cycle fetches. -/
def Obligations.StoreSeenByNextFetch : Prop :=
  ∀ (m0 m1 m2 : Mode) (s : State), s.mem.wf → slotsReadable m0 m1 m2 s →
    let ea := effectiveAddrs m0 m1 m2 s
    0 ≤ ea.ea0.toInt → 0 ≤ ea.ea1.toInt → 0 ≤ ea.ea2.toInt → ea.ea2 = wrap (s.pc.toInt + 4) →
    ∀ p ∈ ([(.add m0 m1 m2, aluAdd), (.mul m0 m1 m2, aluMul), (.lt m0 m1 m2, aluLt), (.eq m0 m1 m2, aluEq)] :
        List (Instr × (Word → Word → Word))),
      ∃ t, exec p.1 s = .next t ∧ fetch t = .ok (p.2 (s.mem.read ea.ea0.toNat) (s.mem.read ea.ea1.toNat))

/-! ## Arithmetic and comparison -/

/-- R103: add and multiply are the exact result modulo 2^64, commutative and associative, and exact where the result fits. -/
def Obligations.AluArithmeticLaws : Prop :=
  ∀ a b c : Word,
    ((2 : Int) ^ 64 ∣ (aluAdd a b).toInt - (a.toInt + b.toInt)) ∧ ((2 : Int) ^ 64 ∣ (aluMul a b).toInt - a.toInt * b.toInt) ∧
    aluAdd a b = aluAdd b a ∧ aluMul a b = aluMul b a ∧
    aluAdd (aluAdd a b) c = aluAdd a (aluAdd b c) ∧ aluMul (aluMul a b) c = aluMul a (aluMul b c) ∧
    (-9223372036854775808 ≤ a.toInt + b.toInt → a.toInt + b.toInt < 9223372036854775808 →
      (aluAdd a b).toInt = a.toInt + b.toInt) ∧
    (-9223372036854775808 ≤ a.toInt * b.toInt → a.toInt * b.toInt < 9223372036854775808 →
      (aluMul a b).toInt = a.toInt * b.toInt)

/-- R101: ADD, whole: its encoding, its result, its faults. -/
def Obligations.AddResult : Prop :=
  ∀ (m0 m1 m2 : Mode) (s : State),
    encode (.add m0 m1 m2) = wrap (1 + 100 * m0.toDigit + 1000 * m1.toDigit + 10000 * m2.toDigit) ∧
    (slotsReadable m0 m1 m2 s →
      let ea := effectiveAddrs m0 m1 m2 s
      (0 ≤ ea.ea0.toInt → 0 ≤ ea.ea1.toInt → 0 ≤ ea.ea2.toInt → exec (.add m0 m1 m2) s = .next { s with
        mem := s.mem.write ea.ea2.toNat
          (wrap ((s.mem.read ea.ea0.toNat).toInt + (s.mem.read ea.ea1.toNat).toInt)),
        pc := wrap (s.pc.toInt + 4) }) ∧
      (ea.ea0.toInt < 0 → exec (.add m0 m1 m2) s = .next (s.raise (negativeAddress ea.ea0))) ∧
      (0 ≤ ea.ea0.toInt → ea.ea1.toInt < 0 → exec (.add m0 m1 m2) s = .next (s.raise (negativeAddress ea.ea1))) ∧
      (0 ≤ ea.ea0.toInt → 0 ≤ ea.ea1.toInt → ea.ea2.toInt < 0 →
        exec (.add m0 m1 m2) s = .next (s.raise (negativeAddress ea.ea2))))

/-- R102: MUL, whole: its encoding, its result, its faults. -/
def Obligations.MulResult : Prop :=
  ∀ (m0 m1 m2 : Mode) (s : State),
    encode (.mul m0 m1 m2) = wrap (2 + 100 * m0.toDigit + 1000 * m1.toDigit + 10000 * m2.toDigit) ∧
    (slotsReadable m0 m1 m2 s →
      let ea := effectiveAddrs m0 m1 m2 s
      (0 ≤ ea.ea0.toInt → 0 ≤ ea.ea1.toInt → 0 ≤ ea.ea2.toInt → exec (.mul m0 m1 m2) s = .next { s with
        mem := s.mem.write ea.ea2.toNat
          (wrap ((s.mem.read ea.ea0.toNat).toInt * (s.mem.read ea.ea1.toNat).toInt)),
        pc := wrap (s.pc.toInt + 4) }) ∧
      (ea.ea0.toInt < 0 → exec (.mul m0 m1 m2) s = .next (s.raise (negativeAddress ea.ea0))) ∧
      (0 ≤ ea.ea0.toInt → ea.ea1.toInt < 0 → exec (.mul m0 m1 m2) s = .next (s.raise (negativeAddress ea.ea1))) ∧
      (0 ≤ ea.ea0.toInt → 0 ≤ ea.ea1.toInt → ea.ea2.toInt < 0 →
        exec (.mul m0 m1 m2) s = .next (s.raise (negativeAddress ea.ea2))))

/-- R131: LT, whole: its encoding, its result, its faults. -/
def Obligations.LtResult : Prop :=
  ∀ (m0 m1 m2 : Mode) (s : State),
    encode (.lt m0 m1 m2) = wrap (7 + 100 * m0.toDigit + 1000 * m1.toDigit + 10000 * m2.toDigit) ∧
    (slotsReadable m0 m1 m2 s →
      let ea := effectiveAddrs m0 m1 m2 s
      (0 ≤ ea.ea0.toInt → 0 ≤ ea.ea1.toInt → 0 ≤ ea.ea2.toInt → exec (.lt m0 m1 m2) s = .next { s with
        mem := s.mem.write ea.ea2.toNat
          (if (s.mem.read ea.ea0.toNat).toInt < (s.mem.read ea.ea1.toNat).toInt then 1 else 0),
        pc := wrap (s.pc.toInt + 4) }) ∧
      (ea.ea0.toInt < 0 → exec (.lt m0 m1 m2) s = .next (s.raise (negativeAddress ea.ea0))) ∧
      (0 ≤ ea.ea0.toInt → ea.ea1.toInt < 0 → exec (.lt m0 m1 m2) s = .next (s.raise (negativeAddress ea.ea1))) ∧
      (0 ≤ ea.ea0.toInt → 0 ≤ ea.ea1.toInt → ea.ea2.toInt < 0 →
        exec (.lt m0 m1 m2) s = .next (s.raise (negativeAddress ea.ea2))))

/-- R132: EQ, whole: its encoding, its result, its faults. -/
def Obligations.EqResult : Prop :=
  ∀ (m0 m1 m2 : Mode) (s : State),
    encode (.eq m0 m1 m2) = wrap (8 + 100 * m0.toDigit + 1000 * m1.toDigit + 10000 * m2.toDigit) ∧
    (slotsReadable m0 m1 m2 s →
      let ea := effectiveAddrs m0 m1 m2 s
      (0 ≤ ea.ea0.toInt → 0 ≤ ea.ea1.toInt → 0 ≤ ea.ea2.toInt → exec (.eq m0 m1 m2) s = .next { s with
        mem := s.mem.write ea.ea2.toNat (if s.mem.read ea.ea0.toNat = s.mem.read ea.ea1.toNat then 1 else 0),
        pc := wrap (s.pc.toInt + 4) }) ∧
      (ea.ea0.toInt < 0 → exec (.eq m0 m1 m2) s = .next (s.raise (negativeAddress ea.ea0))) ∧
      (0 ≤ ea.ea0.toInt → ea.ea1.toInt < 0 → exec (.eq m0 m1 m2) s = .next (s.raise (negativeAddress ea.ea1))) ∧
      (0 ≤ ea.ea0.toInt → 0 ≤ ea.ea1.toInt → ea.ea2.toInt < 0 →
        exec (.eq m0 m1 m2) s = .next (s.raise (negativeAddress ea.ea2))))

/-! ## Input and output -/

/-- R112: IN, whole: its encoding, a value delivered, an exhausted port, a port that holds the core, a negative destination.
That a hold is a step which changes nothing is the model's (log entry 7; the port's readiness is log entry 6). -/
def Obligations.InResult : Prop :=
  ∀ (m0 m1 m2 : Mode) (s : State),
    encode (.inp m0 m1 m2) = wrap (3 + 100 * m0.toDigit + 1000 * m1.toDigit + 10000 * m2.toDigit) ∧
    (slotsReadable m0 m1 m2 s →
      let ea := effectiveAddrs m0 m1 m2 s
      (∀ v rest, 0 ≤ ea.ea0.toInt → s.inPort.ready = true → s.inPort.seq = v :: rest →
        exec (.inp m0 m1 m2) s = .next { s with
          mem := s.mem.write ea.ea0.toNat v,
          pc := wrap (s.pc.toInt + 2),
          inPort := { s.inPort with seq := rest } }) ∧
      (0 ≤ ea.ea0.toInt → s.inPort.ready = true → s.inPort.seq = [] →
        exec (.inp m0 m1 m2) s = .next (s.raise inputExhausted)) ∧
      (0 ≤ ea.ea0.toInt → s.inPort.ready = false → exec (.inp m0 m1 m2) s = .next s) ∧
      (ea.ea0.toInt < 0 → exec (.inp m0 m1 m2) s = .next (s.raise (negativeAddress ea.ea0))))

/-- R113: OUT, whole: its encoding, a value accepted, a port that holds the core, a negative source. That a hold is a step which
changes nothing is the model's (log entry 7; the port's readiness is log entry 6). -/
def Obligations.OutResult : Prop :=
  ∀ (m0 m1 m2 : Mode) (s : State),
    encode (.out m0 m1 m2) = wrap (4 + 100 * m0.toDigit + 1000 * m1.toDigit + 10000 * m2.toDigit) ∧
    (slotsReadable m0 m1 m2 s →
      let ea := effectiveAddrs m0 m1 m2 s
      (0 ≤ ea.ea0.toInt → s.outPort.ready = true → exec (.out m0 m1 m2) s = .next { s with
        pc := wrap (s.pc.toInt + 2),
        outPort := { s.outPort with seq := s.outPort.seq ++ [s.mem.read ea.ea0.toNat] } }) ∧
      (0 ≤ ea.ea0.toInt → s.outPort.ready = false → exec (.out m0 m1 m2) s = .next s) ∧
      (ea.ea0.toInt < 0 → exec (.out m0 m1 m2) s = .next (s.raise (negativeAddress ea.ea0))))

/-- R195: over any run, the input delivered is taken from the front of in_seq and the output is added at the end of out_seq, at
most one transfer a step. -/
def Obligations.PortTransfersInOrder : Prop :=
  ∀ (n : Nat) (s t : State), Host.Core.run core n s = .next t →
    ∃ taken emitted : List Word, s.inPort.seq = taken ++ t.inPort.seq ∧ t.outPort.seq = s.outPort.seq ++ emitted ∧
      taken.length + emitted.length ≤ n

/-- R31: what the output port has received so far has no influence on anything but out_seq. -/
def Obligations.OutputRecordIsInvisible : Prop :=
  ∀ (s : State) (l : List Word),
    step { s with outPort := { s.outPort with seq := l ++ s.outPort.seq } } =
      match step s with
      | .next t => .next { t with outPort := { t.outPort with seq := l ++ t.outPort.seq } }
      | .fault f => .fault f
      | .refused r => .refused r

/-- R110, R111, R174: in the closed model no instruction is held, and it stays closed; in the open model a held core stays as
it is however often it tries. That a hold is a step is log entry 7; the port's readiness is log entry 6. -/
def Obligations.HoldsLastAndClosedModelNeverHolds : Prop :=
  (∀ s : State, s.closed → (inNext s).1 ≠ .notReady ∧ ∀ v, (outEmit v s).1 = .accepted) ∧
  (∀ s t : State, s.closed → step s = .next t → t.closed) ∧
  (∀ (m0 m1 m2 : Mode) (s : State), s.canStep → 0 ≤ s.pc.toInt → slotsReadable m0 m1 m2 s →
    0 ≤ (effectiveAddrs m0 m1 m2 s).ea0.toInt →
    ((decode (s.mem.read s.pc.toNat) = .ok (.inp m0 m1 m2) ∧ s.inPort.ready = false) ∨
      (decode (s.mem.read s.pc.toNat) = .ok (.out m0 m1 m2) ∧ s.outPort.ready = false)) →
    ∀ n, Host.Core.run core n s = .next s)

/-! ## Jumps and halt -/

/-- R121: JT, whole: its encoding, taken, not taken (the target is then not read), its faults. -/
def Obligations.JtResult : Prop :=
  ∀ (m0 m1 m2 : Mode) (s : State),
    encode (.jt m0 m1 m2) = wrap (5 + 100 * m0.toDigit + 1000 * m1.toDigit + 10000 * m2.toDigit) ∧
    (slotsReadable m0 m1 m2 s →
      let ea := effectiveAddrs m0 m1 m2 s
      (0 ≤ ea.ea0.toInt → s.mem.read ea.ea0.toNat ≠ 0 → 0 ≤ ea.ea1.toInt →
        exec (.jt m0 m1 m2) s = .next { s with pc := s.mem.read ea.ea1.toNat }) ∧
      (0 ≤ ea.ea0.toInt → s.mem.read ea.ea0.toNat = 0 →
        exec (.jt m0 m1 m2) s = .next { s with pc := wrap (s.pc.toInt + 3) }) ∧
      (ea.ea0.toInt < 0 → exec (.jt m0 m1 m2) s = .next (s.raise (negativeAddress ea.ea0))) ∧
      (0 ≤ ea.ea0.toInt → s.mem.read ea.ea0.toNat ≠ 0 → ea.ea1.toInt < 0 →
        exec (.jt m0 m1 m2) s = .next (s.raise (negativeAddress ea.ea1))))

/-- R122: JF, whole: its encoding, taken, not taken (the target is then not read), its faults. -/
def Obligations.JfResult : Prop :=
  ∀ (m0 m1 m2 : Mode) (s : State),
    encode (.jf m0 m1 m2) = wrap (6 + 100 * m0.toDigit + 1000 * m1.toDigit + 10000 * m2.toDigit) ∧
    (slotsReadable m0 m1 m2 s →
      let ea := effectiveAddrs m0 m1 m2 s
      (0 ≤ ea.ea0.toInt → s.mem.read ea.ea0.toNat = 0 → 0 ≤ ea.ea1.toInt →
        exec (.jf m0 m1 m2) s = .next { s with pc := s.mem.read ea.ea1.toNat }) ∧
      (0 ≤ ea.ea0.toInt → s.mem.read ea.ea0.toNat ≠ 0 →
        exec (.jf m0 m1 m2) s = .next { s with pc := wrap (s.pc.toInt + 3) }) ∧
      (ea.ea0.toInt < 0 → exec (.jf m0 m1 m2) s = .next (s.raise (negativeAddress ea.ea0))) ∧
      (0 ≤ ea.ea0.toInt → s.mem.read ea.ea0.toNat = 0 → ea.ea1.toInt < 0 →
        exec (.jf m0 m1 m2) s = .next (s.raise (negativeAddress ea.ea1))))

/-- R175, R91: a taken jump to its own address is executed again, for ever. -/
def Obligations.SelfJumpNeverEnds : Prop :=
  ∀ (m0 m1 m2 : Mode) (s : State), s.canStep → 0 ≤ s.pc.toInt → slotsReadable m0 m1 m2 s →
    let ea := effectiveAddrs m0 m1 m2 s
    0 ≤ ea.ea0.toInt → 0 ≤ ea.ea1.toInt → s.mem.read ea.ea1.toNat = s.pc →
    ((decode (s.mem.read s.pc.toNat) = .ok (.jt m0 m1 m2) ∧ s.mem.read ea.ea0.toNat ≠ 0) ∨
      (decode (s.mem.read s.pc.toNat) = .ok (.jf m0 m1 m2) ∧ s.mem.read ea.ea0.toNat = 0)) →
    ∀ n, Host.Core.run core n s = .next s

/-- R140: HLT, whole: its encoding; once its slots resolve, only run_state changes, whatever the effective addresses; after
it the core has no step. -/
def Obligations.HltResult : Prop :=
  ∀ (m0 m1 m2 : Mode) (s : State),
    encode (.hlt m0 m1 m2) = wrap (99 + 100 * m0.toDigit + 1000 * m1.toDigit + 10000 * m2.toDigit) ∧
    (slotsReadable m0 m1 m2 s → exec (.hlt m0 m1 m2) s = .next { s with runState := .halted }) ∧
    ¬ ∃ t, step { s with runState := .halted } = .next t

/-! ## Frames -/

/-- R100, R161: the frame of ADD, MUL, LT and EQ (the instructions of three operands): a fault is recorded and nothing else
changes; or memory may differ at ea[2] alone, the pc moves, and nothing else changes. -/
def Obligations.AluFrame : Prop :=
  ∀ (i : Instr) (s t : State), i.arity = 3 → exec i s = .next t →
    (∃ r, t = s.raise r) ∨
    (t.runState = s.runState ∧ t.fault = s.fault ∧ t.inPort = s.inPort ∧ t.outPort = s.outPort ∧
      ∀ a, a ≠ (effectiveAddrs i.mode0 i.mode1 i.mode2 s).ea2.toNat → t.mem.read a = s.mem.read a)

/-- R112, R161: the frame of IN: a fault is recorded and nothing else changes; or memory may differ at ea[0] alone, at most the
head of in_seq is taken, the pc moves, and nothing else changes. -/
def Obligations.InFrame : Prop :=
  ∀ (m0 m1 m2 : Mode) (s t : State), exec (.inp m0 m1 m2) s = .next t →
    (∃ r, t = s.raise r) ∨
    (t.runState = s.runState ∧ t.fault = s.fault ∧ t.outPort = s.outPort ∧ t.inPort.ready = s.inPort.ready ∧
      (t.inPort.seq = s.inPort.seq ∨ t.inPort.seq = s.inPort.seq.tail) ∧
      ∀ a, a ≠ (effectiveAddrs m0 m1 m2 s).ea0.toNat → t.mem.read a = s.mem.read a)

/-- R113, R121, R122, R140: the frame of OUT, JT, JF and HLT, which store nothing: every address reads as before, in_seq stays;
only OUT touches the output port, at most by one word at the end; only HLT touches run_state; HLT keeps the pc; the fault
record changes only by a fault raised. -/
def Obligations.NonStoringFrame : Prop :=
  ∀ (i : Instr) (s t : State), (i.opcode = 4 ∨ i.opcode = 5 ∨ i.opcode = 6 ∨ i.opcode = 99) → exec i s = .next t →
    (∀ a, t.mem.read a = s.mem.read a) ∧ t.inPort = s.inPort ∧ t.outPort.ready = s.outPort.ready ∧
    (t.outPort.seq = s.outPort.seq ∨ (i.opcode = 4 ∧ ∃ v, t.outPort.seq = s.outPort.seq ++ [v])) ∧
    (t.runState = s.runState ∨ (i.opcode = 99 ∧ t.runState = .halted)) ∧
    (i.opcode = 99 → t.pc = s.pc) ∧ (t.fault = s.fault ∨ ∃ r, t = s.raise r)
end

