-- ==== Sys2Proof/Laws/Decode.lean ====
section
/-! SUPPORT. The range of a word, the wrap, and the decoder's formulas on non-negative and negative words. -/

namespace Sys2Proof

theorem word_toInt_lt (a : Word) : a.toInt < 9223372036854775808 := by have := BitVec.toInt_lt (x := a); simpa using this
theorem word_le_toInt (a : Word) : -9223372036854775808 ≤ a.toInt := by have := BitVec.le_toInt (x := a); simpa using this

theorem toInt_wrap (z : Int) : (wrap z).toInt = z.bmod (2 ^ 64) := by simp [wrap]

/-- R12: the wrap is exact on the word range. -/
theorem toInt_wrap_of_range {z : Int} (hl : -9223372036854775808 ≤ z) (hh : z < 9223372036854775808) :
    (wrap z).toInt = z := by
  rw [toInt_wrap, Int.bmod_def]; omega

@[simp] theorem wrap_toInt (a : Word) : wrap a.toInt = a := by simp [wrap]

theorem toNat_of_nonneg {a : Word} (h : 0 ≤ a.toInt) : (a.toNat : Int) = a.toInt := by
  rw [BitVec.toInt_eq_toNat_cond] at *
  split at h <;> split <;> omega

theorem toNat_lt_of_nonneg {a : Word} (h : 0 ≤ a.toInt) : a.toNat < 9223372036854775808 := by
  have := toNat_of_nonneg h
  have := word_toInt_lt a
  omega

theorem toInt_nonneg_iff (a : Word) : 0 ≤ a.toInt ↔ a.toNat < 9223372036854775808 := by
  refine ⟨toNat_lt_of_nonneg, fun h => ?_⟩
  rw [BitVec.toInt_eq_toNat_cond]; split <;> omega

theorem toNat_injective {a b : Word} (h : a.toNat = b.toNat) : a = b := BitVec.eq_of_toNat_eq h

/-! The formulas of R63, with the literals multiplied out. -/

theorem opcodeField_of_nonneg {iw : Word} (h : 0 ≤ iw.toInt) : opcodeField iw = iw.toInt % 100 := by
  unfold opcodeField trem tdiv; rw [if_pos h]; omega

theorem tdiv_nonneg_of {a b : Int} (ha : 0 ≤ a) (hb : 0 < b) : 0 ≤ tdiv a b := by
  unfold tdiv; rw [if_pos ha]; exact Int.ediv_nonneg ha hb.le

theorem modeField_zero_of_nonneg {iw : Word} (h : 0 ≤ iw.toInt) : modeField iw 0 = iw.toInt / 100 % 10 := by
  simp only [modeField, trem, tdiv, Fin.val_zero, pow_zero]
  split_ifs <;> omega

theorem modeField_one_of_nonneg {iw : Word} (h : 0 ≤ iw.toInt) : modeField iw 1 = iw.toInt / 1000 % 10 := by
  simp only [modeField, trem, tdiv, Fin.val_one, pow_one]
  split_ifs <;> omega

theorem modeField_two_of_nonneg {iw : Word} (h : 0 ≤ iw.toInt) : modeField iw 2 = iw.toInt / 10000 % 10 := by
  have e : (10 : Int) ^ (2 : Slot).val = 100 := rfl
  simp only [modeField, trem, tdiv, e]
  split_ifs <;> omega

theorem opcodeField_of_neg {iw : Word} (h : iw.toInt < 0) : opcodeField iw = -(-iw.toInt % 100) := by
  unfold opcodeField trem tdiv; rw [if_neg (by omega)]; omega

theorem modeField_zero_of_neg {iw : Word} (h : iw.toInt < 0) : modeField iw 0 = -(-iw.toInt / 100 % 10) := by
  simp only [modeField, trem, tdiv, Fin.val_zero, pow_zero]
  split_ifs <;> omega

theorem modeField_one_of_neg {iw : Word} (h : iw.toInt < 0) : modeField iw 1 = -(-iw.toInt / 1000 % 10) := by
  simp only [modeField, trem, tdiv, Fin.val_one, pow_one]
  split_ifs <;> omega

theorem modeField_two_of_neg {iw : Word} (h : iw.toInt < 0) : modeField iw 2 = -(-iw.toInt / 10000 % 10) := by
  have e : (10 : Int) ^ (2 : Slot).val = 100 := rfl
  simp only [modeField, trem, tdiv, e]
  split_ifs <;> omega

/-- R63: the range of the opcode field. -/
theorem opcodeField_range (iw : Word) : -99 ≤ opcodeField iw ∧ opcodeField iw ≤ 99 := by
  unfold opcodeField trem tdiv; split <;> omega

/-- R63: the range of a mode field. -/
theorem modeField_range (iw : Word) (i : Slot) : -9 ≤ modeField iw i ∧ modeField iw i ≤ 9 := by
  unfold modeField
  generalize tdiv (tdiv iw.toInt 100) (10 ^ i.val) = z
  unfold trem tdiv; split <;> omega

theorem ofField_eq_some {v : Int} {m : Mode} : Mode.ofField v = some m ↔ v = m.toDigit := by
  unfold Mode.ofField
  split_ifs with h0 h1
  · subst h0; cases m <;> simp [Mode.toDigit]
  · subst h1; cases m <;> simp [Mode.toDigit]
  · cases m <;> simp [Mode.toDigit] <;> omega

theorem ofField_eq_none {v : Int} : Mode.ofField v = none ↔ v ≠ 0 ∧ v ≠ 1 := by
  unfold Mode.ofField; split_ifs <;> simp_all

@[simp] theorem ofField_toDigit (m : Mode) : Mode.ofField m.toDigit = some m := ofField_eq_some.2 rfl

theorem ofOpcode_eq_none {v : Int} {m0 m1 m2 : Mode} :
    Instr.ofOpcode v m0 m1 m2 = none ↔ ∀ n ∈ Config.opcodes, v ≠ (n : Int) := by
  simp only [Instr.ofOpcode, Config.opcodes, List.forall_mem_cons, List.not_mem_nil, false_implies, implies_true, and_true,
    Nat.cast_one, Nat.cast_ofNat]
  split_ifs <;> simp_all

theorem ofOpcode_eq_some {v : Int} {m0 m1 m2 : Mode} {i : Instr} :
    Instr.ofOpcode v m0 m1 m2 = some i ↔ v = i.opcode ∧ m0 = i.mode0 ∧ m1 = i.mode1 ∧ m2 = i.mode2 := by
  constructor
  · intro h
    unfold Instr.ofOpcode at h
    split_ifs at h <;> cases h <;> simp_all [Instr.opcode, Instr.mode0, Instr.mode1, Instr.mode2]
  · rintro ⟨rfl, rfl, rfl, rfl⟩
    cases i <;> rfl

/-- R82, R83, R89: when the decoder accepts, in the decoder's own fields. -/
theorem decode_ok {iw : Word} {i : Instr} :
    decode iw = .ok i ↔ opcodeField iw = i.opcode ∧ modeField iw 0 = i.mode0.toDigit ∧ modeField iw 1 = i.mode1.toDigit ∧
      modeField iw 2 = i.mode2.toDigit := by
  constructor
  · intro h
    unfold decode at h
    split at h
    · cases h
    · rename_i m0 h0
      split at h
      · cases h
      · rename_i m1 h1
        split at h
        · cases h
        · rename_i m2 h2
          split at h
          · cases h
          · rename_i j hj
            cases h
            obtain ⟨ho, rfl, rfl, rfl⟩ := ofOpcode_eq_some.1 hj
            exact ⟨ho, ofField_eq_some.1 h0, ofField_eq_some.1 h1, ofField_eq_some.1 h2⟩
  · rintro ⟨ho, h0, h1, h2⟩
    unfold decode
    rw [h0, h1, h2, ho]
    simp only [ofField_toDigit]
    rw [ofOpcode_eq_some.2 ⟨rfl, rfl, rfl, rfl⟩]

/-- R83, R89: everything a refused word can be. -/
theorem decode_error {iw : Word} {e : DecodeError} (h : decode iw = .error e) :
    ((modeField iw 0 ≠ 0 ∧ modeField iw 0 ≠ 1) ∧ e = .invalidParameterMode [] 0 (wrap (modeField iw 0))) ∨
    (∃ m0, modeField iw 0 = m0.toDigit ∧ (modeField iw 1 ≠ 0 ∧ modeField iw 1 ≠ 1) ∧
      e = .invalidParameterMode [(0, m0)] 1 (wrap (modeField iw 1))) ∨
    (∃ m0 m1, modeField iw 0 = m0.toDigit ∧ modeField iw 1 = m1.toDigit ∧ (modeField iw 2 ≠ 0 ∧ modeField iw 2 ≠ 1) ∧
      e = .invalidParameterMode [(0, m0), (1, m1)] 2 (wrap (modeField iw 2))) ∨
    (∃ m0 m1 m2, modeField iw 0 = m0.toDigit ∧ modeField iw 1 = m1.toDigit ∧ modeField iw 2 = m2.toDigit ∧
      (∀ n ∈ Config.opcodes, opcodeField iw ≠ (n : Int)) ∧
      e = .invalidOpcode [(0, m0), (1, m1), (2, m2)] (wrap (opcodeField iw))) := by
  unfold decode at h
  split at h
  · rename_i h0
    cases h
    exact .inl ⟨ofField_eq_none.1 h0, rfl⟩
  · rename_i m0 h0
    split at h
    · rename_i h1
      cases h
      exact .inr (.inl ⟨m0, ofField_eq_some.1 h0, ofField_eq_none.1 h1, rfl⟩)
    · rename_i m1 h1
      split at h
      · rename_i h2
        cases h
        exact .inr (.inr (.inl ⟨m0, m1, ofField_eq_some.1 h0, ofField_eq_some.1 h1, ofField_eq_none.1 h2, rfl⟩))
      · rename_i m2 h2
        split at h
        · rename_i hj
          cases h
          exact .inr (.inr (.inr ⟨m0, m1, m2, ofField_eq_some.1 h0, ofField_eq_some.1 h1, ofField_eq_some.1 h2,
            ofOpcode_eq_none.1 hj, rfl⟩))
        · cases h

theorem toDigit_range (m : Mode) : 0 ≤ m.toDigit ∧ m.toDigit ≤ 1 := by cases m <;> simp [Mode.toDigit]

theorem toDigit_injective {m n : Mode} (h : m.toDigit = n.toDigit) : m = n := by
  cases m <;> cases n <;> simp_all [Mode.toDigit]

theorem opcode_range (i : Instr) : 1 ≤ i.opcode ∧ i.opcode ≤ 99 := by cases i <;> simp [Instr.opcode]

/-- R71: the value of the canonical instruction word. -/
theorem encode_toInt (i : Instr) :
    (encode i).toInt = i.opcode + 100 * i.mode0.toDigit + 1000 * i.mode1.toDigit + 10000 * i.mode2.toDigit := by
  have h0 := toDigit_range i.mode0
  have h1 := toDigit_range i.mode1
  have h2 := toDigit_range i.mode2
  have ho := opcode_range i
  exact toInt_wrap_of_range (by omega) (by omega)

end Sys2Proof
end

