-- ==== Sys2Proof/Laws/Memory.lean ====
section
/-! SUPPORT. The laws of the Memory Store: read after write, the canonical form and who keeps it, what a
loaded or placed program reads as. -/

namespace Sys2Proof.Machine

@[simp] theorem read_nil (a : Nat) : Memory.read [] a = unwritten := rfl

theorem read_cons (k : Nat) (w : Word) (t : Memory) (a : Nat) :
    Memory.read ((k, w) :: t) a = if k = a then w else Memory.read t a := rfl

/-- An address below every listed one reads as unwritten. -/
theorem read_below {m : Memory} {a : Nat} (h : ∀ c ∈ m, a < c.1) : m.read a = unwritten := by
  induction m with
  | nil => rfl
  | cons c t ih =>
    obtain ⟨k, w⟩ := c
    have hk : a < k := h (k, w) (by simp)
    rw [read_cons, if_neg (by omega)]
    exact ih fun c hc => h c (by simp [hc])

theorem wf_nil : Memory.wf [] := by simp [Memory.wf]

theorem wf_cons {k : Nat} {w : Word} {t : Memory} :
    Memory.wf ((k, w) :: t) ↔ (∀ c ∈ t, k < c.1) ∧ w ≠ unwritten ∧ k < Config.addrLimit ∧ t.wf := by
  simp only [Memory.wf, List.pairwise_cons, List.forall_mem_cons]
  tauto

/-- R43: a read after a write, at every address. -/
theorem read_write {m : Memory} (h : m.wf) (a b : Nat) (v : Word) :
    (m.write a v).read b = if b = a then v else m.read b := by
  induction m with
  | nil =>
    unfold Memory.write
    by_cases hv : v = unwritten <;> by_cases hb : b = a <;> simp [hv, hb, read_cons, eq_comm]
    intro e; exact absurd e.symm (by simpa using hb)
  | cons c t ih =>
    obtain ⟨k, w⟩ := c
    obtain ⟨hlt, hw, hk, ht⟩ := wf_cons.1 h
    unfold Memory.write
    split
    · rename_i hak
      by_cases hb : b = a
      · subst hb
        split
        · rename_i hv
          rw [if_pos rfl, hv]
          exact read_below fun c hc => by
            rcases List.mem_cons.1 hc with rfl | hc
            · exact hak
            · exact lt_trans hak (hlt c hc)
        · simp [read_cons]
      · rw [if_neg hb]
        split
        · rfl
        · rw [read_cons, if_neg (Ne.symm hb)]
    · split
      · rename_i _ hak
        subst hak
        by_cases hb : b = a
        · subst hb
          split
          · rename_i hv
            rw [if_pos rfl, hv]; exact read_below hlt
          · simp [read_cons]
        · rw [if_neg hb]
          split
          · rw [read_cons, if_neg (Ne.symm hb)]
          · rw [read_cons, read_cons, if_neg (Ne.symm hb), if_neg (Ne.symm hb)]
      · rename_i hak hne
        rw [read_cons, read_cons, ih ht]
        by_cases hb : b = a
        · subst hb; rw [if_neg (Ne.symm hne), if_pos rfl]; simp
        · simp [hb]

theorem read_write_same {m : Memory} (h : m.wf) (a : Nat) (v : Word) : (m.write a v).read a = v := by
  simp [read_write h]

/-- R43: every other address keeps its word, in any memory. -/
theorem read_write_other (m : Memory) {a b : Nat} (hb : b ≠ a) (v : Word) : (m.write a v).read b = m.read b := by
  induction m with
  | nil =>
    unfold Memory.write
    split
    · rfl
    · rw [read_cons, if_neg (Ne.symm hb)]
  | cons c t ih =>
    obtain ⟨k, w⟩ := c
    unfold Memory.write
    split
    · split
      · rfl
      · rw [read_cons, if_neg (Ne.symm hb)]
    · split
      · rename_i _ hak
        subst hak
        split
        · rw [read_cons, if_neg (Ne.symm hb)]
        · rw [read_cons, read_cons, if_neg (Ne.symm hb), if_neg (Ne.symm hb)]
      · rw [read_cons, read_cons, ih]

theorem mem_write {m : Memory} {a : Nat} {v : Word} {c : Cell} (hc : c ∈ m.write a v) : c = (a, v) ∨ c ∈ m := by
  induction m with
  | nil =>
    unfold Memory.write at hc
    split at hc <;> simp_all
  | cons d t ih =>
    obtain ⟨k, w⟩ := d
    unfold Memory.write at hc
    split at hc
    · split at hc <;> simp_all
    · split at hc
      · split at hc
        · simp_all
        · rcases List.mem_cons.1 hc with h | h <;> simp_all
      · rcases List.mem_cons.1 hc with h | h
        · simp_all
        · rcases ih h with h | h <;> simp_all

/-- A write to a valid address keeps the canonical form. -/
theorem write_wf {m : Memory} (h : m.wf) {a : Nat} (ha : a < Config.addrLimit) (v : Word) : (m.write a v).wf := by
  induction m with
  | nil =>
    unfold Memory.write
    split
    · exact wf_nil
    · rename_i hv; exact wf_cons.2 ⟨by simp, hv, ha, wf_nil⟩
  | cons c t ih =>
    obtain ⟨k, w⟩ := c
    obtain ⟨hlt, hw, hk, ht⟩ := wf_cons.1 h
    unfold Memory.write
    split
    · rename_i hak
      split
      · exact h
      · rename_i hv
        refine wf_cons.2 ⟨fun c hc => ?_, hv, ha, h⟩
        rcases List.mem_cons.1 hc with rfl | hc
        · exact hak
        · exact lt_trans hak (hlt c hc)
    · split
      · rename_i _ hak
        split
        · exact ht
        · rename_i hv; exact wf_cons.2 ⟨hak ▸ hlt, hv, ha, ht⟩
      · rename_i hak hne
        refine wf_cons.2 ⟨fun c hc => ?_, hw, hk, ih ht⟩
        rcases mem_write hc with rfl | hc
        · show k < a
          omega
        · exact hlt c hc

theorem place_wf {m : Memory} (h : m.wf) (a : Nat) (ws : List Word) : (m.place a ws).wf := by
  induction ws generalizing m a with
  | nil => exact h
  | cons v rest ih =>
    unfold Memory.place
    split
    · rename_i ha; exact ih (write_wf h ha v) (a + 1)
    · exact h

theorem ofTokens_low {i : Nat} {ts : List Word} : ∀ c ∈ Memory.ofTokens i ts, i ≤ c.1 := by
  induction ts generalizing i with
  | nil => simp [Memory.ofTokens]
  | cons v rest ih =>
    intro c hc
    unfold Memory.ofTokens at hc
    split at hc
    · simp at hc
    · split at hc
      · exact Nat.le_of_succ_le (ih c hc)
      · rcases List.mem_cons.1 hc with rfl | hc
        · exact Nat.le_refl _
        · exact Nat.le_of_succ_le (ih c hc)

theorem ofTokens_wf (i : Nat) (ts : List Word) : (Memory.ofTokens i ts).wf := by
  induction ts generalizing i with
  | nil => exact wf_nil
  | cons v rest ih =>
    unfold Memory.ofTokens
    split
    · exact wf_nil
    · rename_i hi
      split
      · exact ih (i + 1)
      · rename_i hv
        exact wf_cons.2 ⟨fun c hc => ofTokens_low c hc, hv, by omega, ih (i + 1)⟩

/-- A listed address reads as the word listed for it. -/
theorem read_of_mem {m : Memory} (h : m.wf) {c : Cell} (hc : c ∈ m) : m.read c.1 = c.2 := by
  induction m with
  | nil => simp at hc
  | cons d t ih =>
    obtain ⟨k, w⟩ := d
    obtain ⟨hlt, -, -, ht⟩ := wf_cons.1 h
    rcases List.mem_cons.1 hc with rfl | hc
    · simp [read_cons]
    · rw [read_cons, if_neg (by have := hlt c hc; omega)]
      exact ih ht hc

/-- No address outside the address space is listed. -/
theorem read_beyond {m : Memory} (h : m.wf) {a : Nat} (ha : Config.addrLimit ≤ a) : m.read a = unwritten := by
  induction m with
  | nil => rfl
  | cons d t ih =>
    obtain ⟨k, w⟩ := d
    obtain ⟨-, -, hk, ht⟩ := wf_cons.1 h
    rw [read_cons, if_neg (by omega)]
    exact ih ht

/-- Of two writes to one address the later stands alone. -/
theorem write_write (m : Memory) (a : Nat) (v w : Word) (h : m.wf) : (m.write a v).write a w = m.write a w := by
  induction m with
  | nil =>
    by_cases hv : v = unwritten <;> by_cases hw : w = unwritten <;> simp [Memory.write, hv, hw]
  | cons c t ih =>
    obtain ⟨k, x⟩ := c
    obtain ⟨hlt, hx, hk, ht⟩ := wf_cons.1 h
    have tl : ∀ y, a = k → Memory.write t a y = if y = unwritten then t else (a, y) :: t := by
      intro y hak
      cases t with
      | nil => simp [Memory.write]
      | cons d u =>
        have := hlt d (by simp)
        simp [Memory.write, hak, this]
    by_cases h1 : a < k
    · by_cases hv : v = unwritten <;> simp [Memory.write, h1, hv]
    · by_cases h2 : a = k
      · by_cases hv : v = unwritten
        · have e : Memory.write ((k, x) :: t) a v = t := by simp [Memory.write, h2, hv]
          rw [e, tl w h2]; simp [Memory.write, h2]
        · have e : Memory.write ((k, x) :: t) a v = (a, v) :: t := by simp [Memory.write, h2, hv]
          rw [e]; simp [Memory.write, h2]
      · simp [Memory.write, h1, h2, ih ht]

/-- Words placed from `a` on leave the addresses below as they were. -/
theorem place_read_below (ws : List Word) (m : Memory) (a b : Nat) (h : b < a) : (m.place a ws).read b = m.read b := by
  induction ws generalizing m a with
  | nil => rfl
  | cons v t ih =>
    unfold Memory.place; split
    · rw [ih _ _ (by omega), read_write_other m (by omega)]
    · rfl

/-- R186: address `a` of a loaded text holds its token, every other address 0. -/
theorem read_ofTokens (ts : List Word) (i a : Nat) (ha : a < Config.addrLimit) :
    (Memory.ofTokens i ts).read a = if i ≤ a then ts.getD (a - i) 0 else 0 := by
  induction ts generalizing i with
  | nil => simp [Memory.ofTokens, unwritten]
  | cons v rest ih =>
    unfold Memory.ofTokens
    split
    · rename_i h; rw [if_neg (by omega)]; rfl
    · split
      · rename_i hv
        rw [ih (i+1)]
        by_cases h1 : i + 1 ≤ a
        · rw [if_pos h1, if_pos (by omega)]
          have : a - i = (a - (i+1)) + 1 := by omega
          rw [this, List.getD_cons_succ]
        · rw [if_neg h1]
          split
          · have : a - i = 0 := by omega
            rw [this, List.getD_cons_zero, hv]; rfl
          · rfl
      · rw [read_cons]
        by_cases h : i = a
        · subst h; simp
        · rw [if_neg h, ih (i+1)]
          by_cases h1 : i + 1 ≤ a
          · rw [if_pos h1, if_pos (by omega)]
            have : a - i = (a - (i+1)) + 1 := by omega
            rw [this, List.getD_cons_succ]
          · rw [if_neg h1, if_neg (by omega)]

end Sys2Proof.Machine
end

