-- ==== Sys2Proof/Laws/State.lean ====
section
/-! SUPPORT. One lemma per field per update of State, so that no later proof unfolds a record update. -/

namespace Sys2Proof.Machine

/-! The pc updates. -/
@[simp] theorem advance_pc (s : State) (n : Nat) : (s.advance n).pc = wrap (s.pc.toInt + n) := rfl
@[simp] theorem advance_runState (s : State) (n : Nat) : (s.advance n).runState = s.runState := rfl
@[simp] theorem advance_fault (s : State) (n : Nat) : (s.advance n).fault = s.fault := rfl
@[simp] theorem advance_mem (s : State) (n : Nat) : (s.advance n).mem = s.mem := rfl
@[simp] theorem advance_inPort (s : State) (n : Nat) : (s.advance n).inPort = s.inPort := rfl
@[simp] theorem advance_outPort (s : State) (n : Nat) : (s.advance n).outPort = s.outPort := rfl
@[simp] theorem jump_pc (s : State) (d : Word) : (s.jump d).pc = d := rfl
@[simp] theorem jump_runState (s : State) (d : Word) : (s.jump d).runState = s.runState := rfl
@[simp] theorem jump_fault (s : State) (d : Word) : (s.jump d).fault = s.fault := rfl
@[simp] theorem jump_mem (s : State) (d : Word) : (s.jump d).mem = s.mem := rfl
@[simp] theorem jump_inPort (s : State) (d : Word) : (s.jump d).inPort = s.inPort := rfl
@[simp] theorem jump_outPort (s : State) (d : Word) : (s.jump d).outPort = s.outPort := rfl

/-! Taking a fault (R160): the record alone may change. -/
@[simp] theorem raise_pc (s : State) (r : Raised) : (s.raise r).pc = s.pc := by cases h : s.fault <;> simp [State.raise, h]
@[simp] theorem raise_runState (s : State) (r : Raised) : (s.raise r).runState = s.runState := by
  cases h : s.fault <;> simp [State.raise, h]
@[simp] theorem raise_mem (s : State) (r : Raised) : (s.raise r).mem = s.mem := by
  cases h : s.fault <;> simp [State.raise, h]
@[simp] theorem raise_inPort (s : State) (r : Raised) : (s.raise r).inPort = s.inPort := by
  cases h : s.fault <;> simp [State.raise, h]
@[simp] theorem raise_outPort (s : State) (r : Raised) : (s.raise r).outPort = s.outPort := by
  cases h : s.fault <;> simp [State.raise, h]

theorem raise_of_no_fault {s : State} (h : s.fault = none) (r : Raised) :
    s.raise r = { s with fault := some { kind := r.kind, fpc := s.pc, value := r.value, slot := r.slot } } := by
  simp [State.raise, h]

theorem raise_of_fault {s : State} {f : FaultRecord} (h : s.fault = some f) (r : Raised) : s.raise r = s := by
  simp [State.raise, h]

/-- Everything `raise` can do: it writes the record of this cycle, or a record stands and it does nothing. -/
theorem raise_eq (s : State) (r : Raised) :
    s.raise r = { s with fault := some ((s.fault).getD { kind := r.kind, fpc := s.pc, value := r.value, slot := r.slot }) } := by
  cases h : s.fault with
  | none => simp [raise_of_no_fault h]
  | some f => simp only [raise_of_fault h, Option.getD_some]; rw [← h]

@[simp] theorem conclude_ok (s t : State) : s.conclude (.ok t) = t := rfl
@[simp] theorem conclude_error (s : State) (r : Raised) : s.conclude (.error r) = s.raise r := rfl

/-! The events. -/
@[simp] theorem resetEvent_pc (s : State) : s.resetEvent.pc = 0 := rfl
@[simp] theorem resetEvent_runState (s : State) : s.resetEvent.runState = .idle := rfl
@[simp] theorem resetEvent_fault (s : State) : s.resetEvent.fault = none := rfl
@[simp] theorem resetEvent_mem (s : State) : s.resetEvent.mem = s.mem := rfl
@[simp] theorem resetEvent_inPort (s : State) : s.resetEvent.inPort = s.inPort := rfl
@[simp] theorem resetEvent_outPort (s : State) : s.resetEvent.outPort = s.outPort := rfl

@[simp] theorem start_pc (s : State) : s.start.pc = s.pc := by unfold State.start; split <;> rfl
@[simp] theorem start_fault (s : State) : s.start.fault = s.fault := by unfold State.start; split <;> rfl
@[simp] theorem start_mem (s : State) : s.start.mem = s.mem := by unfold State.start; split <;> rfl
@[simp] theorem start_inPort (s : State) : s.start.inPort = s.inPort := by unfold State.start; split <;> rfl
@[simp] theorem start_outPort (s : State) : s.start.outPort = s.outPort := by unfold State.start; split <;> rfl

@[simp] theorem load_pc (s : State) (ts : List Word) : (s.load ts).pc = s.pc := by unfold State.load; split <;> rfl
@[simp] theorem load_runState (s : State) (ts : List Word) : (s.load ts).runState = s.runState := by
  unfold State.load; split <;> rfl
@[simp] theorem load_fault (s : State) (ts : List Word) : (s.load ts).fault = s.fault := by
  unfold State.load; split <;> rfl
@[simp] theorem load_inPort (s : State) (ts : List Word) : (s.load ts).inPort = s.inPort := by
  unfold State.load; split <;> rfl
@[simp] theorem load_outPort (s : State) (ts : List Word) : (s.load ts).outPort = s.outPort := by
  unfold State.load; split <;> rfl

@[simp] theorem supply_pc (s : State) (vs : List Word) : (s.supply vs).pc = s.pc := by unfold State.supply; split <;> rfl
@[simp] theorem supply_runState (s : State) (vs : List Word) : (s.supply vs).runState = s.runState := by
  unfold State.supply; split <;> rfl
@[simp] theorem supply_fault (s : State) (vs : List Word) : (s.supply vs).fault = s.fault := by
  unfold State.supply; split <;> rfl
@[simp] theorem supply_mem (s : State) (vs : List Word) : (s.supply vs).mem = s.mem := by
  unfold State.supply; split <;> rfl

@[simp] theorem setInReady_pc (s : State) (b : Bool) : (s.setInReady b).pc = s.pc := rfl
@[simp] theorem setInReady_runState (s : State) (b : Bool) : (s.setInReady b).runState = s.runState := rfl
@[simp] theorem setInReady_fault (s : State) (b : Bool) : (s.setInReady b).fault = s.fault := rfl
@[simp] theorem setInReady_mem (s : State) (b : Bool) : (s.setInReady b).mem = s.mem := rfl
@[simp] theorem setInReady_outPort (s : State) (b : Bool) : (s.setInReady b).outPort = s.outPort := rfl
@[simp] theorem setOutReady_pc (s : State) (b : Bool) : (s.setOutReady b).pc = s.pc := rfl
@[simp] theorem setOutReady_runState (s : State) (b : Bool) : (s.setOutReady b).runState = s.runState := rfl
@[simp] theorem setOutReady_fault (s : State) (b : Bool) : (s.setOutReady b).fault = s.fault := rfl
@[simp] theorem setOutReady_mem (s : State) (b : Bool) : (s.setOutReady b).mem = s.mem := rfl
@[simp] theorem setOutReady_inPort (s : State) (b : Bool) : (s.setOutReady b).inPort = s.inPort := rfl

end Sys2Proof.Machine
end

