-- ==== Sys2Proof/Laws/Operations.lean ====
section
/-! SUPPORT. For each shared operation, once, everything it can do: when it completes and with what, and what it raises. -/

namespace Sys2Proof.Machine

/-! Memory accesses (R42, R43). -/

theorem memRead_of_nonneg {a : Word} (h : 0 ≤ a.toInt) (s : State) : memRead a s = .ok (s.mem.read a.toNat) := by
  simp [memRead, not_lt.2 h]

theorem memRead_of_neg {a : Word} (h : a.toInt < 0) (s : State) : memRead a s = .error (negativeAddress a) := by
  simp [memRead, h]

theorem memRead_ok {a v : Word} {s : State} : memRead a s = .ok v ↔ 0 ≤ a.toInt ∧ v = s.mem.read a.toNat := by
  unfold memRead; split <;> simp_all [eq_comm]

theorem memRead_error {a : Word} {s : State} {r : Raised} :
    memRead a s = .error r ↔ a.toInt < 0 ∧ r = negativeAddress a := by
  unfold memRead; split <;> simp_all [eq_comm]

theorem memWrite_of_nonneg {a : Word} (h : 0 ≤ a.toInt) (v : Word) (s : State) :
    memWrite a v s = .ok { s with mem := s.mem.write a.toNat v } := by
  simp [memWrite, not_lt.2 h]

theorem memWrite_of_neg {a : Word} (h : a.toInt < 0) (v : Word) (s : State) :
    memWrite a v s = .error (negativeAddress a) := by
  simp [memWrite, h]

theorem memWrite_ok {a v : Word} {s t : State} :
    memWrite a v s = .ok t ↔ 0 ≤ a.toInt ∧ t = { s with mem := s.mem.write a.toNat v } := by
  unfold memWrite; split <;> simp_all [eq_comm]

theorem memWrite_error {a v : Word} {s : State} {r : Raised} :
    memWrite a v s = .error r ↔ a.toInt < 0 ∧ r = negativeAddress a := by
  unfold memWrite; split <;> simp_all [eq_comm]

/-! Slot resolution (R85, R86). -/

theorem resolveSlot_of_readable {i : Slot} {m : Mode} {s : State} (h : slotReadable i m s) :
    resolveSlot i m s = .ok (effectiveAddr i m s) := by
  cases m with
  | position => exact memRead_of_nonneg (h rfl) s
  | immediate => rfl

theorem resolveSlot_error {i : Slot} {m : Mode} {s : State} {r : Raised} :
    resolveSlot i m s = .error r ↔ ¬ slotReadable i m s ∧ r = negativeAddress (paramAddr s.pc i) := by
  cases m with
  | position => simp [resolveSlot, memRead_error, slotReadable]
  | immediate => simp [resolveSlot, slotReadable]

theorem resolveSlot_of_unreadable {i : Slot} {m : Mode} {s : State} (h : ¬ slotReadable i m s) :
    resolveSlot i m s = .error (negativeAddress (paramAddr s.pc i)) := resolveSlot_error.2 ⟨h, rfl⟩

theorem resolve_of_readable {m0 m1 m2 : Mode} {s : State} (h : slotsReadable m0 m1 m2 s) :
    resolve m0 m1 m2 s = .ok (effectiveAddrs m0 m1 m2 s) := by
  simp [resolve, effectiveAddrs, resolveSlot_of_readable h.1, resolveSlot_of_readable h.2.1, resolveSlot_of_readable h.2.2]

/-- A resolution that faults faults at its first unreadable slot, with that slot's parameter address. -/
theorem resolve_of_unreadable {m0 m1 m2 : Mode} {s : State} (h : ¬ slotsReadable m0 m1 m2 s) :
    ∃ i : Slot, (paramAddr s.pc i).toInt < 0 ∧ resolve m0 m1 m2 s = .error (negativeAddress (paramAddr s.pc i)) := by
  have neg : ∀ {i : Slot} {m : Mode}, ¬ slotReadable i m s → (paramAddr s.pc i).toInt < 0 := by
    intro i m hn; simp only [slotReadable, Classical.not_imp] at hn; omega
  by_cases h0 : slotReadable 0 m0 s
  · by_cases h1 : slotReadable 1 m1 s
    · have h2 : ¬ slotReadable 2 m2 s := fun h2 => h ⟨h0, h1, h2⟩
      exact ⟨2, neg h2, by simp [resolve, resolveSlot_of_readable h0, resolveSlot_of_readable h1, resolveSlot_of_unreadable h2]⟩
    · exact ⟨1, neg h1, by simp [resolve, resolveSlot_of_readable h0, resolveSlot_of_unreadable h1]⟩
  · exact ⟨0, neg h0, by simp [resolve, resolveSlot_of_unreadable h0]⟩

/-! The cycle after the decode. -/

theorem runOperation_of_readable {m0 m1 m2 : Mode} {s : State} (h : slotsReadable m0 m1 m2 s)
    (op : Eas → State → Except Raised State) :
    runOperation m0 m1 m2 op s = .next (s.conclude
      (op (effectiveAddrs m0 m1 m2 s) s)) := by
  simp [runOperation, resolve_of_readable h]

/-- Everything an instruction cycle can end in: an operation on the resolved addresses that completes, an operation that
raises, or a slot whose parameter cannot be read. -/
theorem runOperation_cases (m0 m1 m2 : Mode) (op : Eas → State → Except Raised State) (s : State) :
    (slotsReadable m0 m1 m2 s ∧ ∃ t, op (effectiveAddrs m0 m1 m2 s) s = .ok t ∧ runOperation m0 m1 m2 op s = .next t) ∨
    (slotsReadable m0 m1 m2 s ∧ ∃ r, op (effectiveAddrs m0 m1 m2 s) s = .error r ∧ runOperation m0 m1 m2 op s = .next (s.raise r)) ∨
    (¬ slotsReadable m0 m1 m2 s ∧ ∃ i : Slot, (paramAddr s.pc i).toInt < 0 ∧
        runOperation m0 m1 m2 op s = .next (s.raise (negativeAddress (paramAddr s.pc i)))) := by
  by_cases h : slotsReadable m0 m1 m2 s
  · rw [runOperation_of_readable h]
    cases hop : op (effectiveAddrs m0 m1 m2 s) s with
    | ok t => exact .inl ⟨h, t, rfl, rfl⟩
    | error r => exact .inr (.inl ⟨h, r, rfl, rfl⟩)
  · obtain ⟨i, hi, he⟩ := resolve_of_unreadable h
    exact .inr (.inr ⟨h, i, hi, by simp [runOperation, he]⟩)

/-! The operations. -/

/-- R100: everything the ALU data path can do. -/
theorem aluDataPath_cases (f : Word → Word → Word) (ea : Eas) (s : State) :
    (0 ≤ ea.ea0.toInt ∧ 0 ≤ ea.ea1.toInt ∧ 0 ≤ ea.ea2.toInt ∧ aluDataPath f ea s = .ok { s with
        mem := s.mem.write ea.ea2.toNat (f (s.mem.read ea.ea0.toNat) (s.mem.read ea.ea1.toNat)),
        pc := wrap (s.pc.toInt + 4) }) ∨
    (ea.ea0.toInt < 0 ∧ aluDataPath f ea s = .error (negativeAddress ea.ea0)) ∨
    (0 ≤ ea.ea0.toInt ∧ ea.ea1.toInt < 0 ∧ aluDataPath f ea s = .error (negativeAddress ea.ea1)) ∨
    (0 ≤ ea.ea0.toInt ∧ 0 ≤ ea.ea1.toInt ∧ ea.ea2.toInt < 0 ∧ aluDataPath f ea s = .error (negativeAddress ea.ea2)) := by
  rcases lt_or_ge ea.ea0.toInt 0 with h0 | h0
  · exact .inr (.inl ⟨h0, by simp [aluDataPath, memRead_of_neg h0]⟩)
  · rcases lt_or_ge ea.ea1.toInt 0 with h1 | h1
    · exact .inr (.inr (.inl ⟨h0, h1, by simp [aluDataPath, memRead_of_nonneg h0, memRead_of_neg h1]⟩))
    · rcases lt_or_ge ea.ea2.toInt 0 with h2 | h2
      · exact .inr (.inr (.inr ⟨h0, h1, h2, by
          simp [aluDataPath, memRead_of_nonneg h0, memRead_of_nonneg h1, memWrite_of_neg h2]⟩))
      · exact .inl ⟨h0, h1, h2, by
          simp [aluDataPath, memRead_of_nonneg h0, memRead_of_nonneg h1, memWrite_of_nonneg h2, State.advance]⟩

/-- R112: everything the input operation can do. -/
theorem opIn_cases (ea : Eas) (s : State) :
    (ea.ea0.toInt < 0 ∧ opIn ea s = .error (negativeAddress ea.ea0)) ∨
    (0 ≤ ea.ea0.toInt ∧ s.inPort.ready = false ∧ opIn ea s = .ok s) ∨
    (0 ≤ ea.ea0.toInt ∧ s.inPort.ready = true ∧ s.inPort.seq = [] ∧ opIn ea s = .error inputExhausted) ∨
    (∃ v rest, 0 ≤ ea.ea0.toInt ∧ s.inPort.ready = true ∧ s.inPort.seq = v :: rest ∧ opIn ea s = .ok { s with
        mem := s.mem.write ea.ea0.toNat v,
        pc := wrap (s.pc.toInt + 2),
        inPort := { s.inPort with seq := rest } }) := by
  rcases lt_or_ge ea.ea0.toInt 0 with h0 | h0
  · exact .inl ⟨h0, by simp [opIn, h0]⟩
  · cases hr : s.inPort.ready with
    | false => exact .inr (.inl ⟨h0, rfl, by simp [opIn, not_lt.2 h0, inNext, hr]⟩)
    | true =>
      cases hs : s.inPort.seq with
      | nil => exact .inr (.inr (.inl ⟨h0, rfl, rfl, by simp [opIn, not_lt.2 h0, inNext, hr, hs]⟩))
      | cons v rest =>
        exact .inr (.inr (.inr ⟨v, rest, h0, rfl, rfl, by
          simp [opIn, not_lt.2 h0, inNext, hr, hs, memWrite_of_nonneg h0, State.advance]⟩))

/-- R113: everything the output operation can do. -/
theorem opOut_cases (ea : Eas) (s : State) :
    (ea.ea0.toInt < 0 ∧ opOut ea s = .error (negativeAddress ea.ea0)) ∨
    (0 ≤ ea.ea0.toInt ∧ s.outPort.ready = false ∧ opOut ea s = .ok s) ∨
    (0 ≤ ea.ea0.toInt ∧ s.outPort.ready = true ∧ opOut ea s = .ok { s with
        pc := wrap (s.pc.toInt + 2),
        outPort := { s.outPort with seq := s.outPort.seq ++ [s.mem.read ea.ea0.toNat] } }) := by
  rcases lt_or_ge ea.ea0.toInt 0 with h0 | h0
  · exact .inl ⟨h0, by simp [opOut, memRead_of_neg h0]⟩
  · cases hr : s.outPort.ready with
    | false => exact .inr (.inl ⟨h0, rfl, by simp [opOut, memRead_of_nonneg h0, outEmit, hr]⟩)
    | true => exact .inr (.inr ⟨h0, rfl, by simp [opOut, memRead_of_nonneg h0, outEmit, hr, State.advance]⟩)

/-- R91, R120: everything a conditional jump can do. -/
theorem jumpPath_cases (taken : Word → Bool) (ea : Eas) (s : State) :
    (ea.ea0.toInt < 0 ∧ jumpPath taken ea s = .error (negativeAddress ea.ea0)) ∨
    (0 ≤ ea.ea0.toInt ∧ taken (s.mem.read ea.ea0.toNat) = false ∧
      jumpPath taken ea s = .ok { s with pc := wrap (s.pc.toInt + 3) }) ∨
    (0 ≤ ea.ea0.toInt ∧ taken (s.mem.read ea.ea0.toNat) = true ∧ ea.ea1.toInt < 0 ∧
      jumpPath taken ea s = .error (negativeAddress ea.ea1)) ∨
    (0 ≤ ea.ea0.toInt ∧ taken (s.mem.read ea.ea0.toNat) = true ∧ 0 ≤ ea.ea1.toInt ∧
      jumpPath taken ea s = .ok { s with pc := s.mem.read ea.ea1.toNat }) := by
  rcases lt_or_ge ea.ea0.toInt 0 with h0 | h0
  · exact .inl ⟨h0, by simp [jumpPath, memRead_of_neg h0]⟩
  · cases ht : taken (s.mem.read ea.ea0.toNat) with
    | false => exact .inr (.inl ⟨h0, rfl, by simp [jumpPath, memRead_of_nonneg h0, ht, State.advance]⟩)
    | true =>
      rcases lt_or_ge ea.ea1.toInt 0 with h1 | h1
      · exact .inr (.inr (.inl ⟨h0, rfl, h1, by simp [jumpPath, memRead_of_nonneg h0, ht, memRead_of_neg h1]⟩))
      · exact .inr (.inr (.inr ⟨h0, rfl, h1, by
          simp [jumpPath, memRead_of_nonneg h0, ht, memRead_of_nonneg h1, State.jump]⟩))

/-- R140: the halt operation always completes. -/
theorem opHlt_eq (ea : Eas) (s : State) : opHlt ea s = .ok { s with runState := .halted } := rfl

end Sys2Proof.Machine
end

