-- ==== Sys2Proof/Laws/PerInstr.lean ====
section
/-! SUPPORT. Statements made per instruction: the canonical word of an instruction is well-formed (R71), and its length is
the one R60 gives its opcode. -/

namespace Sys2Proof.Laws.EncodeWellFormed

/-- R71: all eight canonical words of an opcode are valid instruction words of five digits. -/
def Statement (i : Instr) : Prop := wordCanonical (encode i) = true

theorem add (m0 m1 m2 : Mode) : Statement (.add m0 m1 m2) := by cases m0 <;> cases m1 <;> cases m2 <;> unfold Statement <;> decide
theorem mul (m0 m1 m2 : Mode) : Statement (.mul m0 m1 m2) := by cases m0 <;> cases m1 <;> cases m2 <;> unfold Statement <;> decide
theorem inp (m0 m1 m2 : Mode) : Statement (.inp m0 m1 m2) := by cases m0 <;> cases m1 <;> cases m2 <;> unfold Statement <;> decide
theorem out (m0 m1 m2 : Mode) : Statement (.out m0 m1 m2) := by cases m0 <;> cases m1 <;> cases m2 <;> unfold Statement <;> decide
theorem jt (m0 m1 m2 : Mode) : Statement (.jt m0 m1 m2) := by cases m0 <;> cases m1 <;> cases m2 <;> unfold Statement <;> decide
theorem jf (m0 m1 m2 : Mode) : Statement (.jf m0 m1 m2) := by cases m0 <;> cases m1 <;> cases m2 <;> unfold Statement <;> decide
theorem lt (m0 m1 m2 : Mode) : Statement (.lt m0 m1 m2) := by cases m0 <;> cases m1 <;> cases m2 <;> unfold Statement <;> decide
theorem eq (m0 m1 m2 : Mode) : Statement (.eq m0 m1 m2) := by cases m0 <;> cases m1 <;> cases m2 <;> unfold Statement <;> decide
theorem hlt (m0 m1 m2 : Mode) : Statement (.hlt m0 m1 m2) := by cases m0 <;> cases m1 <;> cases m2 <;> unfold Statement <;> decide

end Sys2Proof.Laws.EncodeWellFormed

namespace Sys2Proof.Laws.Length

/-- R60: four words for opcodes 1, 2, 7, 8; three for 5, 6; two for 3, 4; one for 99. Mode digits never change it. -/
def Statement (i : Instr) : Prop :=
  i.length = if i.opcode ∈ [1, 2, 7, 8] then 4 else if i.opcode ∈ [5, 6] then 3 else if i.opcode ∈ [3, 4] then 2 else 1

theorem add (m0 m1 m2 : Mode) : Statement (.add m0 m1 m2) := rfl
theorem mul (m0 m1 m2 : Mode) : Statement (.mul m0 m1 m2) := rfl
theorem inp (m0 m1 m2 : Mode) : Statement (.inp m0 m1 m2) := rfl
theorem out (m0 m1 m2 : Mode) : Statement (.out m0 m1 m2) := rfl
theorem jt (m0 m1 m2 : Mode) : Statement (.jt m0 m1 m2) := rfl
theorem jf (m0 m1 m2 : Mode) : Statement (.jf m0 m1 m2) := rfl
theorem lt (m0 m1 m2 : Mode) : Statement (.lt m0 m1 m2) := rfl
theorem eq (m0 m1 m2 : Mode) : Statement (.eq m0 m1 m2) := rfl
theorem hlt (m0 m1 m2 : Mode) : Statement (.hlt m0 m1 m2) := rfl

end Sys2Proof.Laws.Length
end

