-- ==== Sys2Proof/Laws/Step.lean ====
section
/-! SUPPORT. What one instruction and one step can do, said once; the provers cite these instead of unfolding `exec` and
`step`. -/

namespace Sys2Proof.Machine

/-- The operation an instruction runs on its effective addresses. -/
def operation : Instr → Eas → State → Except Raised State
  | .add _ _ _ => opAdd
  | .mul _ _ _ => opMul
  | .inp _ _ _ => opIn
  | .out _ _ _ => opOut
  | .jt _ _ _ => opJt
  | .jf _ _ _ => opJf
  | .lt _ _ _ => opLt
  | .eq _ _ _ => opEq
  | .hlt _ _ _ => opHlt

/-- Every instruction is the shared cycle around its operation. -/
theorem exec_eq (i : Instr) (s : State) :
    exec i s = runOperation i.mode0 i.mode1 i.mode2 (operation i) s := by cases i <;> rfl

/-- The effective addresses of an instruction whose slots resolve. -/
abbrev instrAddrs (i : Instr) (s : State) : Eas := effectiveAddrs i.mode0 i.mode1 i.mode2 s

/-- Everything an instruction can do. -/
theorem exec_cases (i : Instr) (s : State) :
    (slotsReadable i.mode0 i.mode1 i.mode2 s ∧ ∃ t, operation i (instrAddrs i s) s = .ok t ∧ exec i s = .next t) ∨
    (slotsReadable i.mode0 i.mode1 i.mode2 s ∧ ∃ r, operation i (instrAddrs i s) s = .error r ∧
      exec i s = .next (s.raise r)) ∨
    (¬ slotsReadable i.mode0 i.mode1 i.mode2 s ∧ ∃ k : Slot, (paramAddr s.pc k).toInt < 0 ∧
      exec i s = .next (s.raise (negativeAddress (paramAddr s.pc k)))) := by
  rw [exec_eq]; exact runOperation_cases _ _ _ _ s

/-- Every way an operation can complete: a write to memory (the ALU), an input, a hold, an output, a jump or the halt. -/
theorem operation_ok {i : Instr} {ea : Eas} {s t : State} (h : operation i ea s = .ok t) :
    (0 ≤ ea.ea2.toInt ∧ i.arity = 3 ∧ ∃ v, t = { s with mem := s.mem.write ea.ea2.toNat v, pc := wrap (s.pc.toInt + 4) }) ∨
    (i.opcode = 3 ∧ 0 ≤ ea.ea0.toInt ∧ s.inPort.ready = true ∧ ∃ v rest, s.inPort.seq = v :: rest ∧ t = { s with
        mem := s.mem.write ea.ea0.toNat v,
        pc := wrap (s.pc.toInt + 2),
        inPort := { s.inPort with seq := rest } }) ∨
    (((i.opcode = 3 ∧ s.inPort.ready = false) ∨ (i.opcode = 4 ∧ s.outPort.ready = false)) ∧ t = s) ∨
    (i.opcode = 4 ∧ 0 ≤ ea.ea0.toInt ∧ s.outPort.ready = true ∧ t = { s with
        pc := wrap (s.pc.toInt + 2),
        outPort := { s.outPort with seq := s.outPort.seq ++ [s.mem.read ea.ea0.toNat] } }) ∨
    ((i.opcode = 5 ∨ i.opcode = 6) ∧ (t = { s with pc := wrap (s.pc.toInt + 3) } ∨
      (0 ≤ ea.ea1.toInt ∧ t = { s with pc := s.mem.read ea.ea1.toNat }))) ∨
    (i.opcode = 99 ∧ t = { s with runState := .halted }) := by
  have alu : ∀ f : Word → Word → Word, aluDataPath f ea s = .ok t → 0 ≤ ea.ea2.toInt ∧
      ∃ v, t = { s with mem := s.mem.write ea.ea2.toNat v, pc := wrap (s.pc.toInt + 4) } := by
    intro f hf
    rcases aluDataPath_cases f ea s with ⟨-, -, h2, e⟩ | ⟨-, e⟩ | ⟨-, -, e⟩ | ⟨-, -, -, e⟩ <;> rw [e] at hf
    · exact ⟨h2, _, (Except.ok.inj hf).symm⟩
    all_goals cases hf
  have jmp : ∀ p : Word → Bool, jumpPath p ea s = .ok t → t = { s with pc := wrap (s.pc.toInt + 3) } ∨
      (0 ≤ ea.ea1.toInt ∧ t = { s with pc := s.mem.read ea.ea1.toNat }) := by
    intro p hp
    rcases jumpPath_cases p ea s with ⟨-, e⟩ | ⟨-, -, e⟩ | ⟨-, -, -, e⟩ | ⟨-, -, h1, e⟩ <;> rw [e] at hp
    · cases hp
    · exact .inl (Except.ok.inj hp).symm
    · cases hp
    · exact .inr ⟨h1, (Except.ok.inj hp).symm⟩
  cases i with
  | add | mul | lt | eq => exact .inl ⟨(alu _ h).1, rfl, (alu _ h).2⟩
  | inp =>
    rcases opIn_cases ea s with ⟨-, e⟩ | ⟨-, hr, e⟩ | ⟨-, -, -, e⟩ | ⟨v, rest, h0, hr, hs, e⟩ <;>
      rw [show operation _ ea s = opIn ea s from rfl, e] at h
    · cases h
    · exact .inr (.inr (.inl ⟨.inl ⟨rfl, hr⟩, (Except.ok.inj h).symm⟩))
    · cases h
    · exact .inr (.inl ⟨rfl, h0, hr, v, rest, hs, (Except.ok.inj h).symm⟩)
  | out =>
    rcases opOut_cases ea s with ⟨-, e⟩ | ⟨-, hr, e⟩ | ⟨h0, hr, e⟩ <;>
      rw [show operation _ ea s = opOut ea s from rfl, e] at h
    · cases h
    · exact .inr (.inr (.inl ⟨.inr ⟨rfl, hr⟩, (Except.ok.inj h).symm⟩))
    · exact .inr (.inr (.inr (.inl ⟨rfl, h0, hr, (Except.ok.inj h).symm⟩)))
  | jt => exact .inr (.inr (.inr (.inr (.inl ⟨.inl rfl, jmp _ h⟩))))
  | jf => exact .inr (.inr (.inr (.inr (.inl ⟨.inr rfl, jmp _ h⟩))))
  | hlt => exact .inr (.inr (.inr (.inr (.inr ⟨rfl, (Except.ok.inj h).symm⟩))))

/-- Every fault an operation can raise: an access at a negative effective address, or an input port with no more input. -/
theorem operation_error {i : Instr} {ea : Eas} {s : State} {r : Raised} (h : operation i ea s = .error r) :
    (∃ a : Word, a.toInt < 0 ∧ r = negativeAddress a) ∨ (i.opcode = 3 ∧ s.inPort.seq = [] ∧ r = inputExhausted) := by
  have alu : ∀ f : Word → Word → Word, aluDataPath f ea s = .error r → ∃ a : Word, a.toInt < 0 ∧ r = negativeAddress a := by
    intro f hf
    rcases aluDataPath_cases f ea s with ⟨-, -, -, e⟩ | ⟨n, e⟩ | ⟨-, n, e⟩ | ⟨-, -, n, e⟩ <;> rw [e] at hf
    · cases hf
    all_goals exact ⟨_, n, (Except.error.inj hf).symm⟩
  have jmp : ∀ p : Word → Bool, jumpPath p ea s = .error r → ∃ a : Word, a.toInt < 0 ∧ r = negativeAddress a := by
    intro p hp
    rcases jumpPath_cases p ea s with ⟨n, e⟩ | ⟨-, -, e⟩ | ⟨-, -, n, e⟩ | ⟨-, -, -, e⟩ <;> rw [e] at hp
    · exact ⟨_, n, (Except.error.inj hp).symm⟩
    · cases hp
    · exact ⟨_, n, (Except.error.inj hp).symm⟩
    · cases hp
  cases i with
  | add | mul | lt | eq => exact .inl (alu _ h)
  | jt | jf => exact .inl (jmp _ h)
  | inp =>
    rcases opIn_cases ea s with ⟨n, e⟩ | ⟨-, -, e⟩ | ⟨-, -, hs, e⟩ | ⟨v, rest, -, -, -, e⟩ <;>
      rw [show operation _ ea s = opIn ea s from rfl, e] at h
    · exact .inl ⟨_, n, (Except.error.inj h).symm⟩
    · cases h
    · exact .inr ⟨rfl, hs, (Except.error.inj h).symm⟩
    · cases h
  | out =>
    rcases opOut_cases ea s with ⟨n, e⟩ | ⟨-, -, e⟩ | ⟨-, -, e⟩ <;>
      rw [show operation _ ea s = opOut ea s from rfl, e] at h
    · exact .inl ⟨_, n, (Except.error.inj h).symm⟩
    · cases h
    · cases h
  | hlt => cases h

/-- Where the core has a step (R80). -/
theorem status_notEnded {s : State} : s.status = .notEnded ↔ s.runState = .running ∧ s.fault = none := by
  unfold State.status; cases s.fault <;> cases s.runState <;> simp

/-- R80: the step of a core that has one. -/
theorem step_running {s : State} (hr : s.runState = .running) (hf : s.fault = none) :
    step s = match fetch s with
      | .error r => .next (s.raise r)
      | .ok iw =>
        match decode iw with
        | .error e => .next (s.raise (decodeFault e s))
        | .ok i => exec i s := by
  obtain ⟨pc, r, f, m, i, o⟩ := s
  obtain rfl : r = .running := hr
  obtain rfl : f = none := hf
  rfl

/-- Everything a step that answers a next state can have done. -/
theorem step_cases {s t : State} (h : step s = .next t) :
    (s.runState = .running ∧ s.fault = none) ∧
    ((s.pc.toInt < 0 ∧ t = s.raise (negativeAddress s.pc)) ∨
     (0 ≤ s.pc.toInt ∧ ∃ e, decode (s.mem.read s.pc.toNat) = .error e ∧ t = s.raise (decodeFault e s)) ∨
     (0 ≤ s.pc.toInt ∧ ∃ i, decode (s.mem.read s.pc.toNat) = .ok i ∧ exec i s = .next t)) := by
  have hs : s.runState = .running ∧ s.fault = none := by
    rw [← status_notEnded]
    cases hst : s.status with
    | notEnded => rfl
    | notStarted | cleanEnd | errorTerminal => simp [step, hst] at h
  refine ⟨hs, ?_⟩
  rw [step_running hs.1 hs.2] at h
  rcases lt_or_ge s.pc.toInt 0 with hp | hp
  · rw [show fetch s = _ from memRead_of_neg hp s] at h
    exact .inl ⟨hp, by cases h; rfl⟩
  · rw [show fetch s = _ from memRead_of_nonneg hp s] at h
    cases hd : decode (s.mem.read s.pc.toNat) with
    | error e => exact .inr (.inl ⟨hp, e, rfl, by simp only [hd] at h; cases h; rfl⟩)
    | ok i => exact .inr (.inr ⟨hp, i, rfl, by simpa only [hd] using h⟩)

/-- What a slot resolved before a failed decode can raise. -/
theorem firstFault_some {l : List (Slot × Mode)} {s : State} {r : Raised} (h : firstFault l s = some r) :
    ∃ a : Word, a.toInt < 0 ∧ r = negativeAddress a := by
  induction l with
  | nil => cases h
  | cons p rest ih =>
    obtain ⟨i, m⟩ := p
    unfold firstFault at h
    split at h
    · rename_i r' hr
      cases h
      obtain ⟨hn, rfl⟩ := resolveSlot_error.1 hr
      simp only [slotReadable, Classical.not_imp] at hn
      exact ⟨_, by omega, rfl⟩
    · exact ih h

/-- Where no earlier slot faults, the decode's own fault is taken. -/
theorem decodeFault_of_readable {e : DecodeError} {s : State} (h : ∀ p ∈ e.earlier, slotReadable p.1 p.2 s) :
    decodeFault e s = decodeRaised e := by
  have : firstFault e.earlier s = none := by
    generalize e.earlier = l at h
    induction l with
    | nil => rfl
    | cons p rest ih =>
      obtain ⟨i, m⟩ := p
      rw [List.forall_mem_cons] at h
      simp only [firstFault, resolveSlot_of_readable h.1]
      exact ih h.2
  simp [decodeFault, this]

/-- A write through `memWrite` keeps the canonical form. -/
theorem memWrite_wf {a v : Word} {s t : State} (h : memWrite a v s = .ok t) (hs : s.mem.wf) : t.mem.wf := by
  obtain ⟨ha, rfl⟩ := memWrite_ok.1 h
  exact write_wf hs (toNat_lt_of_nonneg ha) v

/-- The events keep the canonical form. -/
theorem apply_wf {s : State} (h : s.mem.wf) (e : Event) : (s.apply e).mem.wf := by
  cases e with
  | reset => exact h
  | load ts => simp only [State.apply, State.load]; split; exacts [ofTokens_wf 0 ts, h]
  | supply vs => simpa [State.apply] using h
  | start => simpa [State.apply] using h
  | inReady b => exact h
  | outReady b => exact h

/-- Placing an instruction at the pc keeps the canonical form. -/
theorem withFetchWord_wf {s : State} (h : s.mem.wf) (nbits w : Nat) : (s.withFetchWord nbits w).mem.wf := place_wf h _ _

end Sys2Proof.Machine
end

