-- ==== Sys2Proof/Laws/Run.lean ====
section
/-! SUPPORT. Runs of several steps, the launched machine, the pieces of the literal cycle, the parameter addresses, and what a
raised fault does to the invariant. -/

namespace Sys2Proof.Machine

/-- Congruence modulo 2^64 is equality of the wrapped words. -/
theorem wrap_congr {a b : Int} : wrap a = wrap b ↔ (2:Int)^64 ∣ a - b := by
  rw [← BitVec.toInt_inj, toInt_wrap, toInt_wrap]
  constructor
  · intro h
    rw [Int.bmod_def, Int.bmod_def] at h
    omega
  · intro h
    rw [Int.bmod_def, Int.bmod_def]
    omega

/-- R12: a wrapped value is congruent to what it wraps. -/
theorem wrap_dvd (z : Int) : (2:Int)^64 ∣ (wrap z).toInt - z := wrap_congr.1 (wrap_toInt _)

theorem slot_cases (k : Slot) : k = 0 ∨ k = 1 ∨ k = 2 := by fin_cases k <;> simp

/-- R84: no parameter address wraps below the last three words of the address space. -/
theorem paramAddr_toInt {pc : Word} (h : 0 ≤ pc.toInt) (h' : pc.toInt ≤ 9223372036854775804) (k : Slot) :
    (paramAddr pc k).toInt = pc.toInt + 1 + k.val := by
  have := k.isLt
  exact toInt_wrap_of_range (by omega) (by omega)

/-- R185: the launched machine. -/
theorem launch_eq (s : State) (ts ins : List Word) : s.launch ts ins =
    { pc := 0, runState := .running, fault := none, mem := Memory.ofTokens 0 ts,
      inPort := { s.inPort with seq := ins }, outPort := { s.outPort with seq := [] } } := by
  simp [State.launch, State.start, State.load, State.supply, State.resetEvent]

/-- One step and then `n`. -/
theorem run_succ {s t : State} (h : step s = .next t) (n : Nat) :
    Host.Core.run core (n + 1) s = Host.Core.run core n t := by
  have h' : core.step s = .next t := h
  simp only [Host.Core.run, h']

/-- A run of `n + 1` steps starts with one. -/
theorem run_next {n : Nat} {s t : State} (h : Host.Core.run core (n + 1) s = .next t) :
    ∃ u, step s = .next u ∧ Host.Core.run core n u = .next t := by
  cases hs : step s with
  | next u => exact ⟨u, rfl, by rw [← run_succ hs]; exact h⟩
  | fault f =>
    have h' : core.step s = .fault f := hs
    simp only [Host.Core.run, h'] at h
    cases h
  | refused f =>
    have h' : core.step s = .refused f := hs
    simp only [Host.Core.run, h'] at h
    cases h

/-- A state that steps to itself stays for ever. -/
theorem run_fixed {s : State} (h : step s = .next s) (n : Nat) : Host.Core.run core n s = .next s := by
  induction n with
  | zero => rfl
  | succ n ih => rw [run_succ h]; exact ih

/-- The literal cycle resolves a slot whose mode is valid. -/
theorem cycleSlot_valid {iw : Word} {i : Slot} {m : Mode} (h : modeField iw i = m.toDigit) (s : State) :
    cycleSlot iw i s = resolveSlot i m s := by
  cases m <;> simp [cycleSlot, h, Mode.toDigit, resolveSlot]

/-- The literal cycle raises for a mode that is not. -/
theorem cycleSlot_bad {iw : Word} {i : Slot} (h : modeField iw i ≠ 0 ∧ modeField iw i ≠ 1) (s : State) :
    cycleSlot iw i s = .error (invalidParameterMode (wrap (modeField iw i)) i) := by
  simp [cycleSlot, h]

/-- The literal dispatch on an instruction's opcode. -/
theorem cycleCase_instr (i : Instr) (ea s) : cycleCase i.opcode ea s = operation i ea s := by cases i <;> rfl

/-- The literal dispatch on an opcode outside the table. -/
theorem cycleCase_bad {v : Int} (h : ∀ n ∈ Config.opcodes, v ≠ (n : Int)) (ea s) :
    cycleCase v ea s = .error (invalidOpcode (wrap v)) := by
  simp [Config.opcodes] at h
  simp [cycleCase, h]

theorem raise_fault_ne {s : State} (r) : (s.raise r).fault ≠ none := by rw [raise_eq]; simp

/-- The record of a failed decode is a legal one. -/
theorem decodeFault_wf {iw : Word} {e} (h : decode iw = .error e) (s : State) :
    FaultRecord.wf ⟨(decodeFault e s).kind, s.pc, (decodeFault e s).value, (decodeFault e s).slot⟩ := by
  unfold decodeFault
  cases hf : firstFault e.earlier s with
  | some r =>
    obtain ⟨a, ha, rfl⟩ := firstFault_some hf
    exact ⟨rfl, ha⟩
  | none =>
    have hm := fun k => modeField_range iw k
    have ho := opcodeField_range iw
    have hw : ∀ k, (wrap (modeField iw k)).toInt = modeField iw k := fun k =>
      toInt_wrap_of_range (by have := hm k; omega) (by have := hm k; omega)
    have hwo : (wrap (opcodeField iw)).toInt = opcodeField iw := toInt_wrap_of_range (by omega) (by omega)
    rcases decode_error h with ⟨⟨a, b⟩, rfl⟩ | ⟨m0, -, ⟨a, b⟩, rfl⟩ | ⟨m0, m1, -, -, ⟨a, b⟩, rfl⟩ |
      ⟨m0, m1, m2, -, -, -, hn, rfl⟩
    iterate 3
      · refine ⟨by simp [decodeRaised, invalidParameterMode], ?_, ?_, ?_⟩ <;>
          simp only [Option.getD_none, decodeRaised, invalidParameterMode, hw]
        · exact (hm _).1
        · exact (hm _).2
        · simp [Config.modes, a, b]
    · refine ⟨rfl, ?_, ?_, ?_⟩ <;> simp only [Option.getD_none, decodeRaised, invalidOpcode, hwo]
      · exact ho.1
      · exact ho.2
      · exact hn

/-- Raising a fault with a legal record keeps the invariant. -/
theorem raise_inv {s : State} {r : Raised} (h : s.Inv) (hr : s.runState = .running) (hf : s.fault = none)
    (hw : FaultRecord.wf ⟨r.kind, s.pc, r.value, r.slot⟩) : (s.raise r).Inv := by
  rw [raise_of_no_fault hf]
  refine ⟨h.memory, ?_, h.entry⟩
  intro f hf'
  cases hf'
  exact ⟨hr, rfl, hw⟩

end Sys2Proof.Machine
end

