-- ==== Sys2Proof/Tests/Slice0.lean ====
section
/-! SUPPORT. The model's own tests, each on one word or one step, the expected results from 95_test_vectors.md (the vector's id
in the docstring); the refusals of WellFormed; and for each statement of Certificates/Slice0 a state that meets its
hypotheses. -/

namespace Sys2Proof.Tests

open Sys2Proof.Machine

/-- The machine launched on a program text and an input sequence (R185). -/
def boot (tokens inputs : List Word) : State := State.reset.launch tokens inputs

/-- The step answers a next state of which `p` holds. -/
def after (s : State) (p : State → Bool) : Bool :=
  match step s with
  | .next t => p t
  | .fault _ => false
  | .refused _ => false

/-- The step answers a state with a fault recorded as given, and everything else as before. -/
def faults (s : State) (kind : FaultKind) (fpc value : Word) (slot : Option Slot) : Bool :=
  after s fun t => decide (t = { s with fault := some { kind := kind, fpc := fpc, value := value, slot := slot } })

/-- A core running at `pc` over the cells `m`. -/
def runningAt (pc : Word) (m : Memory) : State := { boot [] [] with pc := pc, mem := m }

theorem after_next {s : State} {p : State → Bool} (h : after s p = true) : ∃ t, step s = .next t ∧ p t = true := by
  unfold after at h
  split at h
  · exact ⟨_, by assumption, h⟩
  · cases h
  · cases h

/-! ## WellFormed refuses (R67, R72, R65, R66) -/

theorem test_wf_accepts : wordWellFormed 1002 = true ∧ wordCanonical 11199 = true ∧ wordWellFormed 100099 = true := by decide
theorem test_wf_refuses_negative : signWellFormed (-1) = false ∧ wordWellFormed (-99) = false := by decide
theorem test_wf_refuses_opcode : opcodeWellFormed 50 = false ∧ wordWellFormed 0 = false := by decide
theorem test_wf_refuses_mode0 : modeWellFormed 0 299 = false ∧ wordWellFormed 299 = false := by decide
theorem test_wf_refuses_mode1 : modeWellFormed 1 2099 = false ∧ wordWellFormed 2099 = false := by decide
theorem test_wf_refuses_mode2 : modeWellFormed 2 20099 = false ∧ wordWellFormed 20099 = false := by decide
theorem test_wf_refuses_high_digits : wordCanonical 100099 = false := by decide

/-! ## Decoding: words written out digit by digit from R62, `ABCDE` (section 2) -/

/-- Every constructor's own word, each with a different choice of mode digits. E1 to E14. -/
theorem test_decode_each :
    decode 1 = .ok (.add .position .position .position) ∧ decode 1002 = .ok (.mul .position .immediate .position) ∧
    decode 103 = .ok (.inp .immediate .position .position) ∧ decode 104 = .ok (.out .immediate .position .position) ∧
    decode 105 = .ok (.jt .immediate .position .position) ∧ decode 1106 = .ok (.jf .immediate .immediate .position) ∧
    decode 1007 = .ok (.lt .position .immediate .position) ∧ decode 10008 = .ok (.eq .position .position .immediate) ∧
    decode 99 = .ok (.hlt .position .position .position) := by
  exact ⟨rfl, rfl, rfl, rfl, rfl, rfl, rfl, rfl, rfl⟩

/-- E12, E24 to E27: all modes set; halts with mode digits; digits above the fifth ignored. -/
theorem test_decode_more :
    decode 11101 = .ok (.add .immediate .immediate .immediate) ∧ decode 11199 = .ok (.hlt .immediate .immediate .immediate) ∧
    decode 10199 = .ok (.hlt .immediate .position .immediate) ∧ decode 100099 = .ok (.hlt .position .position .position) ∧
    decode 1100099 = .ok (.hlt .position .position .position) := by
  exact ⟨rfl, rfl, rfl, rfl, rfl⟩

/-- E15 to E20, E32, E33, E37, E38: invalid opcodes. -/
theorem test_decode_bad_opcode :
    ([50, 0, 9, 10, 98, 100, -1, -99, -100000, -100099] : List Word).map (fun w =>
      match decode w with
      | .error (.invalidOpcode _ v) => some v.toInt
      | .error (.invalidParameterMode _ _ _) => none
      | .ok _ => none) =
    [some 50, some 0, some 9, some 10, some 98, some 0, some (-1), some (-99), some 0, some (-99)] := by decide

/-- E21 to E23, E28 to E31, E34 to E36, E39, E40: invalid modes, value and slot. -/
theorem test_decode_bad_mode :
    ([299, 2099, 20099, 301, 204, 20004, 12345, -100, -199, -1001, 9223372036854775807, -9223372036854775808] :
        List Word).map (fun w =>
      match decode w with
      | .error (.invalidParameterMode _ i v) => some (v.toInt, i)
      | .error (.invalidOpcode _ _) => none
      | .ok _ => none) =
    [some (2, 0), some (2, 1), some (2, 2), some (3, 0), some (2, 0), some (2, 2), some (3, 0), some (-1, 0), some (-1, 0),
      some (-1, 1), some (8, 0), some (-8, 0)] := by decide

/-- R76: the assembler examples. -/
theorem test_assemble :
    assemble (.add (.position 9) (.position 10) (.position 3)) = [1, 9, 10, 3] ∧
    assemble (.mul (.position 4) (.immediate 3) (.position 4)) = [1002, 4, 3, 4] ∧
    assemble (.jt (.immediate 1) (.immediate 0)) = [1105, 1, 0] ∧ assemble (.out (.immediate (-5))) = [104, -5] ∧
    assemble .hlt = [99] ∧ assembleProgram [.add (.position 4) (.immediate 1) (.position 4), .data [98]] = [1001, 4, 1, 4, 98] := by
  decide

/-- The host's way in: a table row's word decodes, and the step after placing it runs it. -/
theorem test_placed_word :
    decodeTableWord 8 4 = some (.out .position .position .position) ∧
    after (State.reset.withFetchWord 8 99) (fun t => decide (t.runState = .halted)) = true := by decide

/-! ## One step of each instruction -/

/-- S1, J10: `1,0,0,0,99`. -/
theorem test_add : after (boot [1, 0, 0, 0, 99] []) (fun t => decide (t.mem.read 0 = 2 ∧ t.pc = 4)) = true := by decide
/-- L4: overflow wraps; J9: the pc wraps at the top and the destination is the instruction's own last word. -/
theorem test_add_wraps : aluAdd 9223372036854775807 1 = -9223372036854775808 ∧
    after (runningAt 9223372036854775804 [(9223372036854775804, 11101), (9223372036854775805, 2), (9223372036854775806, 3)])
      (fun t => decide (t.mem.read 9223372036854775807 = 5 ∧ t.pc = -9223372036854775808)) = true := by decide
/-- S2: `1002,4,3,4,33`. -/
theorem test_mul : after (boot [1002, 4, 3, 4, 33] []) (fun t => decide (t.mem.read 4 = 99 ∧ t.pc = 4)) = true := by decide
/-- L14, L17, L19. -/
theorem test_mul_wraps : aluMul 3037000500 3037000500 = -9223372036709301616 ∧
    aluMul (-9223372036854775808) (-1) = -9223372036854775808 ∧ aluMul 9223372036854775807 9223372036854775807 = 1 := by decide
/-- O1, first step: only the head of the input is taken. -/
theorem test_in : after (boot [3, 0, 4, 0, 99] [-42, 5])
    (fun t => decide (t.mem.read 0 = -42 ∧ t.pc = 2 ∧ t.inPort.seq = [5])) = true := by decide
/-- O5, O7: no input; a negative destination consumes nothing. -/
theorem test_in_faults : faults (boot [3, 0, 99] []) .inputExhausted 0 0 none = true ∧
    faults (boot [3, -2, 99] [5]) .negativeAddress 0 (-2) none = true := by decide
/-- O3: the literal is emitted. -/
theorem test_out : after (boot [104, -5, 99] []) (fun t => decide (t.outPort.seq = [-5] ∧ t.pc = 2)) = true := by decide
/-- O2, O8: an unwritten word is 0; a negative source emits nothing. -/
theorem test_out_unwritten : after (boot [4, 100, 99] []) (fun t => decide (t.outPort.seq = [0])) = true ∧
    faults (boot [4, -2, 99] []) .negativeAddress 0 (-2) none = true := by decide
/-- J1, J2: taken, not taken. -/
theorem test_jt : after (boot [1105, 7, 4, 50, 99] []) (fun t => decide (t.pc = 4)) = true ∧
    after (boot [1105, 0, 4, 99, 50] []) (fun t => decide (t.pc = 3)) = true := by decide
/-- J7, J8: a negative target is not read unless the jump is taken; a negative condition address faults. -/
theorem test_jt_negative : after (boot [1005, 5, -4, 99, 0, 0] []) (fun t => decide (t.pc = 3 ∧ t.fault = none)) = true ∧
    faults (boot [5, -4, -4, 99] []) .negativeAddress 0 (-4) none = true := by decide
/-- J3, J4: taken, not taken. -/
theorem test_jf : after (boot [1106, 0, 4, 50, 99] []) (fun t => decide (t.pc = 4)) = true ∧
    after (boot [1106, 5, 100, 99] []) (fun t => decide (t.pc = 3)) = true := by decide
/-- L32, L33. -/
theorem test_lt : after (boot [1107, 3, 8, 5, 99, 0] []) (fun t => decide (t.mem.read 5 = 1 ∧ t.pc = 4)) = true ∧
    after (boot [1107, 8, 3, 5, 99, 7] []) (fun t => decide (t.mem.read 5 = 0)) = true := by decide
/-- L22 to L26: strict, signed, exact at the extremes. -/
theorem test_lt_signed : aluLt 5 5 = 0 ∧ aluLt (-1) 0 = 1 ∧ aluLt 0 (-1) = 0 ∧
    aluLt (-9223372036854775808) 9223372036854775807 = 1 ∧ aluLt 9223372036854775807 (-9223372036854775808) = 0 := by decide
/-- L34: two unwritten words are equal. -/
theorem test_eq : after (boot [8, 5, 6, 0, 99] []) (fun t => decide (t.mem.read 0 = 1 ∧ t.pc = 4)) = true := by decide
/-- L28, L30, L31. -/
theorem test_eq_words : aluEq 3 8 = 0 ∧ aluEq (-1) 1 = 0 ∧ aluEq (-1) (-1) = 1 := by decide
/-- A5, A8: negative unused effective addresses do not matter, at the top of the address space either. -/
theorem test_hlt : after (boot [99, -1, -1, -1] []) (fun t => decide (t.runState = .halted ∧ t.pc = 0 ∧ t.fault = none)) = true ∧
    after (runningAt 9223372036854775807 [(9223372036854775807, 11199)]) (fun t => decide (t.runState = .halted)) = true := by
  decide
/-- A7: the parameter fetch of an unused slot faults at the top of the address space. -/
theorem test_hlt_eager : faults (runningAt 9223372036854775807 [(9223372036854775807, 99)]) .negativeAddress
    9223372036854775807 (-9223372036854775808) none = true := by decide

/-! ## Faults of the fetch and the decode -/

/-- X1, X2, X3, X9, X10, J6 (second step). -/
theorem test_decode_faults : faults (boot [50] []) .invalidOpcode 0 50 none = true ∧
    faults (boot [299] []) .invalidParameterMode 0 2 (some 0) = true ∧
    faults (boot [12345] []) .invalidParameterMode 0 3 (some 0) = true ∧
    faults (boot [-1] []) .invalidOpcode 0 (-1) none = true ∧
    faults (boot [-100] []) .invalidParameterMode 0 (-1) (some 0) = true ∧
    faults (runningAt (-7) []) .negativeAddress (-7) (-7) none = true := by decide

/-- A4, X6, X7: the first source, the second source, the destination. -/
theorem test_operand_faults : faults (boot [1, -1, 0, 0, 99] []) .negativeAddress 0 (-1) none = true ∧
    faults (runningAt 10 [(10, 1), (11, 100), (12, -4)]) .negativeAddress 10 (-4) none = true ∧
    faults (boot [1101, 1, 1, -3, 99] []) .negativeAddress 0 (-3) none = true := by decide

/-! ## Memory -/

/-- R44: writing 0 removes the entry; the list stays sorted. -/
theorem test_memory : Memory.write [(1, 5), (7, 2)] 3 9 = [(1, 5), (3, 9), (7, 2)] ∧ Memory.write [(1, 5), (7, 2)] 7 0 = [(1, 5)] ∧
    Memory.read [(1, 5), (7, 2)] 4 = 0 ∧ Memory.ofTokens 0 [3, 0, 99] = [(0, 3), (2, 99)] := by decide

/-! ## Witnesses: for each statement with hypotheses, states and operands that meet all of them together, clause by clause and
at the ends of the ranges. `top` is the highest address. -/

/-- The highest address, 2^63 - 1. -/
abbrev top : Word := 9223372036854775807

/-- A core stopped by a recorded fault. -/
def faulted : State := { boot [0] [] with fault := some { kind := .invalidOpcode, fpc := 0, value := 0, slot := none } }

/-- A core that has halted. -/
def halted : State := { boot [99] [] with runState := .halted }

/-- A core as `s`, its two ports not ready. -/
def portsHeld (s : State) : State := (s.setInReady false).setOutReady false

theorem boot_inv : (boot [1, 0, 0, 0, 99] [7]).Inv :=
  { memory := by decide, record := fun _ h => (nomatch h), entry := fun h => nomatch h }

theorem faulted_inv : faulted.Inv :=
  { memory := by decide
    record := fun r h => by
      cases h
      exact ⟨rfl, rfl, by decide⟩
    entry := fun h => by cases h }

theorem idle_inv : (State.reset.load [99]).Inv :=
  { memory := by decide, record := fun _ h => (nomatch h), entry := fun _ => rfl }

theorem witness_ResetAndLaunchValues : 0 < Config.addrLimit ∧ top.toNat < Config.addrLimit ∧ ¬ top.toNat + 1 < Config.addrLimit := by
  decide

theorem witness_OnlyResetLeavesFaultOrHalt :
    (faulted.fault ≠ none ∧ (faulted.apply .reset).fault ≠ faulted.fault) ∧
    (halted.runState = .halted ∧ (halted.apply .reset).runState ≠ .halted) ∧
    ∃ t, step (boot [1, 0, 0, 0, 99] []) = .next t := by
  exact ⟨by decide, by decide, _, rfl⟩

theorem witness_StartEventEffect :
    State.reset.runState = .idle ∧ halted.runState ≠ .idle ∧ (boot [99] []).runState ≠ .idle ∧
    ((State.reset.load [99]).Inv ∧ (State.reset.load [99]).runState = .idle) := by
  exact ⟨by decide, by decide, by decide, idle_inv, by decide⟩

theorem witness_RunStateWriters :
    (State.reset.apply .start).runState ≠ State.reset.runState ∧ (halted.apply .reset).runState ≠ halted.runState ∧
    ∃ t, step (boot [99] []) = .next t ∧ t.runState ≠ (boot [99] []).runState := by
  exact ⟨by decide, by decide, _, rfl, by decide⟩

theorem witness_MemoryWriters :
    (State.reset.apply (.load [5])).mem ≠ State.reset.mem ∧
    (∃ t, step (boot [1, 0, 0, 0, 99] []) = .next t ∧ t.mem ≠ (boot [1, 0, 0, 0, 99] []).mem) ∧
    ∃ t, step (boot [3, 0, 99] [7]) = .next t ∧ t.mem ≠ (boot [3, 0, 99] [7]).mem := by
  exact ⟨by decide, ⟨_, rfl, by decide⟩, _, rfl, by decide⟩

theorem witness_StepKeepsInvariant :
    (boot [1, 0, 0, 0, 99] [7]).Inv ∧ ∃ t, step (boot [1, 0, 0, 0, 99] [7]) = .next t := ⟨boot_inv, _, rfl⟩

theorem witness_EventsKeepInvariant : (boot [1, 0, 0, 0, 99] [7]).Inv := boot_inv

theorem witness_RunStatusByState : (boot [1, 0, 0, 0, 99] [7]).Inv ∧ faulted.Inv ∧ faulted.fault ≠ none := by
  exact ⟨boot_inv, faulted_inv, by decide⟩

theorem witness_StepExactlyWhenRunning :
    (boot [99] []).canStep ∧ faulted.fault ≠ none ∧ (halted.fault = none ∧ halted.runState = .halted) ∧
    (State.reset.fault = none ∧ State.reset.runState = .idle) := by decide

theorem witness_StepRunsDecoded :
    ((boot [99] []).canStep ∧ 0 ≤ (boot [99] []).pc.toInt ∧
      decode ((boot [99] []).mem.read (boot [99] []).pc.toNat) = .ok (.hlt .position .position .position)) ∧
    ((runningAt top [(top.toNat, 11101)]).canStep ∧ 0 ≤ (runningAt top [(top.toNat, 11101)]).pc.toInt ∧
      decode ((runningAt top [(top.toNat, 11101)]).mem.read top.toNat) = .ok (.add .immediate .immediate .immediate)) := by
  exact ⟨⟨by decide, by decide, rfl⟩, by decide, by decide, rfl⟩

theorem witness_StepRunsPlacedWord :
    State.reset.mem.wf ∧ decodeTableWord 8 4 = some (.out .position .position .position) ∧
    decodeTableWord 256 1101 = some (.add .immediate .immediate .position) := by decide

theorem witness_FetchReadsWordAtPc :
    0 ≤ (runningAt 0 []).pc.toInt ∧ 0 ≤ (runningAt top []).pc.toInt ∧
    ((runningAt (-1) []).canStep ∧ (runningAt (-1) []).pc.toInt < 0) ∧
    ((runningAt (-9223372036854775808) []).canStep ∧ (runningAt (-9223372036854775808) []).pc.toInt < 0) := by decide

/-- For every way an instruction leaves the pc a state: it faults, is held, falls through (the pc wrapping), jumps, halts. -/
theorem witness_PcAfterInstruction :
    (decode 3 = .ok (.inp .position .position .position) ∧
      after (boot [3, 0, 99] []) (fun t => decide (t.fault ≠ none)) = true ∧
      after (portsHeld (boot [3, 0, 99] [])) (fun t => decide (t.fault = none)) = true) ∧
    (decode 104 = .ok (.out .immediate .position .position) ∧
      after (portsHeld (boot [104, 5, 99] [])) (fun t => decide (t.fault = none)) = true ∧
      after (boot [104, 5, 99] []) (fun t => decide (t.fault = none)) = true) ∧
    (decode 11101 = .ok (.add .immediate .immediate .immediate) ∧
      after (runningAt 9223372036854775804 [(9223372036854775804, 11101)]) (fun t => decide (t.fault = none)) = true) ∧
    (decode 1105 = .ok (.jt .immediate .immediate .position) ∧
      after (boot [1105, 7, 4] []) (fun t => decide (t.fault = none)) = true ∧
      after (boot [1105, 0, 4] []) (fun t => decide (t.fault = none)) = true) ∧
    (decode 1106 = .ok (.jf .immediate .immediate .position) ∧
      after (boot [1106, 0, 4] []) (fun t => decide (t.fault = none)) = true ∧
      after (boot [1106, 7, 4] []) (fun t => decide (t.fault = none)) = true) ∧
    (decode 99 = .ok (.hlt .position .position .position) ∧
      after (boot [99] []) (fun t => decide (t.fault = none)) = true) ∧
    ((9223372036854775807 : Int) - 2 < (9223372036854775806 : Word).toInt ∧
      (9223372036854775807 : Int) - 3 < (9223372036854775805 : Word).toInt ∧
      (9223372036854775807 : Int) - 4 < (9223372036854775804 : Word).toInt) := by
  exact ⟨⟨rfl, by decide⟩, ⟨rfl, by decide⟩, ⟨rfl, by decide⟩, ⟨rfl, by decide⟩, ⟨rfl, by decide⟩, ⟨rfl, by decide⟩, by decide⟩

theorem witness_RaiseRecordsFault :
    (boot [99] []).fault = none ∧ faulted.fault ≠ none := by decide

theorem witness_FaultsArePrecise : ∃ t, step (boot [50] []) = .next t ∧ t.fault ≠ none := by
  obtain ⟨t, h, ht⟩ := after_next (s := boot [50] []) (p := fun t => decide (t.fault ≠ none)) (by decide)
  exact ⟨t, h, of_decide_eq_true ht⟩

/-- A word whose opcode is not in the table, at 0 and at the top of the address space (Immediate slots are not read there). -/
theorem witness_InvalidOpcodeRaised :
    ((boot [98] []).canStep ∧ 0 ≤ (boot [98] []).pc.toInt ∧ (∀ k : Slot, modeField 98 k = 0 ∨ modeField 98 k = 1) ∧
      (∀ k : Slot, modeField 98 k = 0 → 0 ≤ (paramAddr (boot [98] []).pc k).toInt) ∧
      ∀ n ∈ Config.opcodes, opcodeField 98 ≠ (n : Int)) ∧
    ((runningAt top [(top.toNat, 11109)]).canStep ∧ 0 ≤ top.toInt ∧
      (∀ k : Slot, modeField 11109 k = 0 ∨ modeField 11109 k = 1) ∧
      (∀ k : Slot, modeField 11109 k = 0 → 0 ≤ (paramAddr top k).toInt) ∧
      ∀ n ∈ Config.opcodes, opcodeField 11109 ≠ (n : Int)) ∧
    ((∀ k : Slot, modeField (-99) k = 0 ∨ modeField (-99) k = 1) ∧ ∀ n ∈ Config.opcodes, opcodeField (-99) ≠ (n : Int)) := by
  decide

/-- A bad mode in slot 0, 1 and 2, and in slot 2 at the top of the address space. -/
theorem witness_InvalidParameterModeRaised :
    ((boot [299] []).canStep ∧ modeField 299 0 ≠ 0 ∧ modeField 299 0 ≠ 1) ∧
    ((boot [2099] []).canStep ∧ (modeField 2099 1 ≠ 0 ∧ modeField 2099 1 ≠ 1) ∧
      (∀ j : Slot, j < 1 → modeField 2099 j = 0 ∨ modeField 2099 j = 1) ∧
      ∀ j : Slot, j < 1 → modeField 2099 j = 0 → 0 ≤ (paramAddr 0 j).toInt) ∧
    ((runningAt top [(top.toNat, 91199)]).canStep ∧ (modeField 91199 2 ≠ 0 ∧ modeField 91199 2 ≠ 1) ∧
      (∀ j : Slot, j < 2 → modeField 91199 j = 0 ∨ modeField 91199 j = 1) ∧
      ∀ j : Slot, j < 2 → modeField 91199 j = 0 → 0 ≤ (paramAddr top j).toInt) := by decide

/-- Both clauses, at pc 0 and at the last pc the statement speaks of. -/
theorem witness_NegativeWordFaults :
    ((boot [-1] []).canStep ∧ (0 : Word).toInt < 9223372036854775805 ∧ ((boot [-1] []).mem.read 0).toInt < 0 ∧
      digit 2 1 = 0 ∧ digit 3 1 = 0 ∧ digit 4 1 = 0) ∧
    ((boot [-100000] []).canStep ∧ ((boot [-100000] []).mem.read 0).toInt < 0 ∧ digit 2 100000 = 0 ∧ digit 3 100000 = 0 ∧
      digit 4 100000 = 0) ∧
    ((runningAt 9223372036854775804 [(9223372036854775804, -100)]).canStep ∧
      (9223372036854775804 : Word).toInt < 9223372036854775805 ∧
      ((runningAt 9223372036854775804 [(9223372036854775804, -100)]).mem.read 9223372036854775804).toInt < 0 ∧
      digit 2 100 ≠ 0) := by decide

/-- Slot 0, 1 and 2 the first whose parameter address is negative. -/
theorem witness_UnreadableSlotRaises :
    ((Instr.hlt .position .position .position).mode 0 = .position ∧ (paramAddr (runningAt top []).pc 0).toInt < 0) ∧
    ((∀ j : Slot, j < 1 → slotReadable j ((Instr.hlt .immediate .position .position).mode j) (runningAt top [])) ∧
      (Instr.hlt .immediate .position .position).mode 1 = .position ∧ (paramAddr (runningAt top []).pc 1).toInt < 0) ∧
    ((∀ j : Slot, j < 2 →
        slotReadable j ((Instr.out .position .position .position).mode j) (runningAt 9223372036854775805 [])) ∧
      (Instr.out .position .position .position).mode 2 = .position ∧
      (paramAddr (runningAt 9223372036854775805 []).pc 2).toInt < 0) := by decide

theorem witness_DecodeOfEncode :
    (encode (.hlt .immediate .immediate .immediate)).toInt + 100000 * 0 < 9223372036854775808 ∧
    (encode (.hlt .position .position .position)).toInt + 100000 * 92233720368547 < 9223372036854775808 := by decide

theorem witness_DecodedWordIsEncoding :
    decode 1 = .ok (.add .position .position .position) ∧
    decode 9223372036854700099 = .ok (.hlt .position .position .position) := ⟨rfl, rfl⟩

theorem witness_FieldsAreDecimalDigits : 0 ≤ (0 : Word).toInt ∧ 0 ≤ top.toInt := by decide

theorem witness_SlotsResolve :
    (0 ≤ (runningAt 0 []).pc.toInt ∧ (runningAt 0 []).pc.toInt ≤ 9223372036854775804) ∧
    (0 ≤ (runningAt 9223372036854775804 []).pc.toInt ∧
      (runningAt 9223372036854775804 []).pc.toInt ≤ 9223372036854775804) := by decide

/-- `MUL [4], #3, [4]` at 0, with an operand of each kind, and `HLT` at the last pc the statement speaks of. -/
theorem witness_AssembledLineRuns :
    ((AsmLine.mul (.position 4) (.immediate 3) (.position 4)).instr = some (.mul .position .immediate .position) ∧
      (boot [1002, 4, 3, 4, 33] []).canStep ∧
      (∀ n, n < (assemble (.mul (.position 4) (.immediate 3) (.position 4))).length →
        (boot [1002, 4, 3, 4, 33] []).mem.read (0 + n) =
          (assemble (.mul (.position 4) (.immediate 3) (.position 4))).getD n 0) ∧
      (AsmLine.mul (.position 4) (.immediate 3) (.position 4)).operands[(1 : Slot).val]? = some (.immediate 3)) ∧
    (AsmLine.hlt.instr = some (.hlt .position .position .position) ∧
      (runningAt 9223372036854775804 [(9223372036854775804, 99)]).canStep ∧
      ∀ n, n < (assemble .hlt).length →
        (runningAt 9223372036854775804 [(9223372036854775804, 99)]).mem.read (9223372036854775804 + n) =
          (assemble .hlt).getD n 0) := by decide

theorem witness_MemReadResult :
    (-1 : Word).toInt < 0 ∧ 0 ≤ (0 : Word).toInt ∧ 0 ≤ top.toInt ∧
    (∀ c ∈ (boot [99] []).mem, c.1 ≠ top.toNat) ∧ ∀ c ∈ State.reset.mem, c.1 ≠ 0 := by decide

theorem witness_MemWriteResult :
    (boot [1, 0, 0, 0, 99] []).mem.wf ∧ (-9223372036854775808 : Word).toInt < 0 ∧ 0 ≤ (0 : Word).toInt ∧ 0 ≤ top.toInt ∧
    (1 : Nat) ≠ (0 : Word).toNat := by decide

theorem witness_EqualReadsEqualMemories :
    Memory.wf [(0, 1), (4, 99)] ∧ Memory.wf ((Memory.write [(4, 99)] 0 1)) ∧
    ∀ a, Memory.read [(0, 1), (4, 99)] a = (Memory.write [(4, 99)] 0 1).read a := ⟨by decide, by decide, fun _ => rfl⟩

theorem witness_RewriteLeavesMemory :
    Memory.wf [(0, 1), (4, 99)] ∧ Memory.read [(0, 1), (4, 99)] 2 = 0 ∧ Memory.read [(0, 1), (4, 99)] 4 ≠ 0 := by decide

/-- `1101,98,1,4`: the sum, 99, is stored over the next instruction. -/
theorem witness_StoreSeenByNextFetch :
    (boot [1101, 98, 1, 4] []).mem.wf ∧ slotsReadable .immediate .immediate .position (boot [1101, 98, 1, 4] []) ∧
    (effectiveAddrs .immediate .immediate .position (boot [1101, 98, 1, 4] [])) = { ea0 := 1, ea1 := 2, ea2 := 4 } ∧
    (4 : Word) = wrap ((boot [1101, 98, 1, 4] []).pc.toInt + 4) := by decide

theorem witness_AluArithmeticLaws :
    (-9223372036854775808 ≤ (-9223372036854775808 : Word).toInt + (0 : Word).toInt ∧
      top.toInt + (0 : Word).toInt < 9223372036854775808) ∧
    (-9223372036854775808 ≤ (-9223372036854775808 : Word).toInt * (1 : Word).toInt ∧
      top.toInt * (1 : Word).toInt < 9223372036854775808) := by decide

/-- The four clauses of AddResult, MulResult, LtResult and EqResult, whose hypotheses are the same: the instruction completes at
0 and at the highest place (its result stored at `top`), or one of its three addresses is negative. -/
theorem witness_AluResults :
    (slotsReadable .position .immediate .position (boot [1001, 0, 5, 0] []) ∧
      effectiveAddrs .position .immediate .position (boot [1001, 0, 5, 0] []) = { ea0 := 0, ea1 := 2, ea2 := 0 }) ∧
    (slotsReadable .immediate .immediate .immediate (runningAt 9223372036854775804 []) ∧
      effectiveAddrs .immediate .immediate .immediate (runningAt 9223372036854775804 []) =
        { ea0 := 9223372036854775805, ea1 := 9223372036854775806, ea2 := top }) ∧
    (slotsReadable .position .position .position (boot [1, -1, 0, 0] []) ∧
      (effectiveAddrs .position .position .position (boot [1, -1, 0, 0] [])).ea0.toInt < 0) ∧
    (slotsReadable .position .position .position (boot [1, 0, -9223372036854775808, 0] []) ∧
      0 ≤ (effectiveAddrs .position .position .position (boot [1, 0, -9223372036854775808, 0] [])).ea0.toInt ∧
      (effectiveAddrs .position .position .position (boot [1, 0, -9223372036854775808, 0] [])).ea1.toInt < 0) ∧
    (slotsReadable .immediate .immediate .immediate (runningAt 9223372036854775805 []) ∧
      0 ≤ (effectiveAddrs .immediate .immediate .immediate (runningAt 9223372036854775805 [])).ea0.toInt ∧
      0 ≤ (effectiveAddrs .immediate .immediate .immediate (runningAt 9223372036854775805 [])).ea1.toInt ∧
      (effectiveAddrs .immediate .immediate .immediate (runningAt 9223372036854775805 [])).ea2.toInt < 0) := by decide

/-- A value at `top`, an exhausted port, a port not ready, a negative destination. -/
theorem witness_InResult :
    (slotsReadable .position .position .position (boot [3, top] [7]) ∧
      (effectiveAddrs .position .position .position (boot [3, top] [7])).ea0 = top ∧
      (boot [3, top] [7]).inPort = { seq := [7], ready := true }) ∧
    (slotsReadable .position .position .position (boot [3, 0] []) ∧
      0 ≤ (effectiveAddrs .position .position .position (boot [3, 0] [])).ea0.toInt ∧
      (boot [3, 0] []).inPort = { seq := [], ready := true }) ∧
    (slotsReadable .position .position .position (portsHeld (boot [3, 0] [7])) ∧
      0 ≤ (effectiveAddrs .position .position .position (portsHeld (boot [3, 0] [7]))).ea0.toInt ∧
      (portsHeld (boot [3, 0] [7])).inPort.ready = false) ∧
    (slotsReadable .position .position .position (boot [3, -1] [7]) ∧
      (effectiveAddrs .position .position .position (boot [3, -1] [7])).ea0.toInt < 0) := by decide

/-- An accepted value, a port not ready, a negative source. -/
theorem witness_OutResult :
    (slotsReadable .position .position .position (boot [4, top] []) ∧
      (effectiveAddrs .position .position .position (boot [4, top] [])).ea0 = top ∧
      (boot [4, top] []).outPort.ready = true) ∧
    (slotsReadable .immediate .position .position (portsHeld (boot [104, 0] [])) ∧
      0 ≤ (effectiveAddrs .immediate .position .position (portsHeld (boot [104, 0] []))).ea0.toInt ∧
      (portsHeld (boot [104, 0] [])).outPort.ready = false) ∧
    (slotsReadable .position .position .position (boot [4, -1] []) ∧
      (effectiveAddrs .position .position .position (boot [4, -1] [])).ea0.toInt < 0) := by decide

theorem witness_PortTransfersInOrder :
    (∃ t, Host.Core.run core 0 (boot [3, 0, 4, 0, 99] [7]) = .next t) ∧
    ∃ t, Host.Core.run core 3 (boot [3, 0, 4, 0, 99] [7]) = .next t := ⟨⟨_, rfl⟩, _, rfl⟩

theorem witness_HoldsLastAndClosedModelNeverHolds :
    ((boot [3, 0] [7]).closed ∧ ∃ t, step (boot [3, 0] [7]) = .next t) ∧
    ((portsHeld (boot [3, 0] [7])).canStep ∧ slotsReadable .position .position .position (portsHeld (boot [3, 0] [7])) ∧
      0 ≤ (effectiveAddrs .position .position .position (portsHeld (boot [3, 0] [7]))).ea0.toInt ∧
      decode ((portsHeld (boot [3, 0] [7])).mem.read 0) = .ok (.inp .position .position .position) ∧
      (portsHeld (boot [3, 0] [7])).inPort.ready = false) ∧
    ((portsHeld (boot [104, 0] [])).canStep ∧ slotsReadable .immediate .position .position (portsHeld (boot [104, 0] [])) ∧
      0 ≤ (effectiveAddrs .immediate .position .position (portsHeld (boot [104, 0] []))).ea0.toInt ∧
      decode ((portsHeld (boot [104, 0] [])).mem.read 0) = .ok (.out .immediate .position .position) ∧
      (portsHeld (boot [104, 0] [])).outPort.ready = false) := by
  exact ⟨⟨by decide, _, rfl⟩, ⟨by decide, by decide, by decide, rfl, by decide⟩, by decide, by decide, by decide, rfl, by decide⟩

/-- JT taken, not taken with a negative target address, a negative condition address, a negative target address. -/
theorem witness_JtResult :
    (slotsReadable .immediate .immediate .position (boot [1105, -1, 4] []) ∧
      effectiveAddrs .immediate .immediate .position (boot [1105, -1, 4] []) = { ea0 := 1, ea1 := 2, ea2 := 0 } ∧
      (boot [1105, -1, 4] []).mem.read 1 ≠ 0) ∧
    (slotsReadable .immediate .position .position (boot [105, 0, -1] []) ∧
      effectiveAddrs .immediate .position .position (boot [105, 0, -1] []) = { ea0 := 1, ea1 := -1, ea2 := 0 } ∧
      (boot [105, 0, -1] []).mem.read 1 = 0) ∧
    (slotsReadable .position .position .position (boot [5, -1, 0] []) ∧
      (effectiveAddrs .position .position .position (boot [5, -1, 0] [])).ea0.toInt < 0) ∧
    (slotsReadable .immediate .position .position (boot [105, 1, -1] []) ∧
      effectiveAddrs .immediate .position .position (boot [105, 1, -1] []) = { ea0 := 1, ea1 := -1, ea2 := 0 } ∧
      (boot [105, 1, -1] []).mem.read 1 ≠ 0) := by decide

/-- JF taken, not taken with a negative target address, a negative condition address, a negative target address. -/
theorem witness_JfResult :
    (slotsReadable .immediate .immediate .position (boot [1106, 0, 4] []) ∧
      effectiveAddrs .immediate .immediate .position (boot [1106, 0, 4] []) = { ea0 := 1, ea1 := 2, ea2 := 0 } ∧
      (boot [1106, 0, 4] []).mem.read 1 = 0) ∧
    (slotsReadable .immediate .position .position (boot [106, -1, -1] []) ∧
      effectiveAddrs .immediate .position .position (boot [106, -1, -1] []) = { ea0 := 1, ea1 := -1, ea2 := 0 } ∧
      (boot [106, -1, -1] []).mem.read 1 ≠ 0) ∧
    (slotsReadable .position .position .position (boot [6, -1, 0] []) ∧
      (effectiveAddrs .position .position .position (boot [6, -1, 0] [])).ea0.toInt < 0) ∧
    (slotsReadable .immediate .position .position (boot [106, 0, -1] []) ∧
      effectiveAddrs .immediate .position .position (boot [106, 0, -1] []) = { ea0 := 1, ea1 := -1, ea2 := 0 } ∧
      (boot [106, 0, -1] []).mem.read 1 = 0) := by decide

/-- `1105,1,0` and `1106,0,0`. -/
theorem witness_SelfJumpNeverEnds :
    ((boot [1105, 1, 0] []).canStep ∧ slotsReadable .immediate .immediate .position (boot [1105, 1, 0] []) ∧
      effectiveAddrs .immediate .immediate .position (boot [1105, 1, 0] []) = { ea0 := 1, ea1 := 2, ea2 := 0 } ∧
      (boot [1105, 1, 0] []).mem.read 2 = (boot [1105, 1, 0] []).pc ∧
      decode ((boot [1105, 1, 0] []).mem.read 0) = .ok (.jt .immediate .immediate .position) ∧
      (boot [1105, 1, 0] []).mem.read 1 ≠ 0) ∧
    ((boot [1106, 0, 0] []).canStep ∧ slotsReadable .immediate .immediate .position (boot [1106, 0, 0] []) ∧
      effectiveAddrs .immediate .immediate .position (boot [1106, 0, 0] []) = { ea0 := 1, ea1 := 2, ea2 := 0 } ∧
      (boot [1106, 0, 0] []).mem.read 2 = (boot [1106, 0, 0] []).pc ∧
      decode ((boot [1106, 0, 0] []).mem.read 0) = .ok (.jf .immediate .immediate .position) ∧
      (boot [1106, 0, 0] []).mem.read 1 = 0) := by
  exact ⟨⟨by decide, by decide, by decide, by decide, rfl, by decide⟩, by decide, by decide, by decide, by decide, rfl, by decide⟩

theorem witness_HltResult :
    slotsReadable .position .position .position (boot [99] []) ∧
    slotsReadable .position .position .position (runningAt 9223372036854775804 []) ∧
    slotsReadable .immediate .immediate .immediate (runningAt top []) := by decide

/-- AluFrame, InFrame and NonStoringFrame: an instruction of each kind that completes, and one that faults. -/
theorem witness_Frames :
    ((Instr.eq .position .position .position).arity = 3 ∧
      (∃ t, exec (.eq .position .position .position) (boot [8, 5, 6, 0] []) = .next t) ∧
      ∃ t, exec (.eq .position .position .position) (boot [8, -1, 6, 0] []) = .next t) ∧
    ((∃ t, exec (.inp .position .position .position) (boot [3, 0] [7]) = .next t) ∧
      ∃ t, exec (.inp .position .position .position) (boot [3, 0] []) = .next t) ∧
    ((∃ t, exec (.out .position .position .position) (boot [4, 0] []) = .next t) ∧
      (∃ t, exec (.jt .position .position .position) (boot [5, 0, 0] []) = .next t) ∧
      (∃ t, exec (.jf .position .position .position) (boot [6, -1, 0] []) = .next t) ∧
      ∃ t, exec (.hlt .position .position .position) (boot [99] []) = .next t) := by
  exact ⟨⟨rfl, ⟨_, rfl⟩, _, rfl⟩, ⟨⟨_, rfl⟩, _, rfl⟩, ⟨_, rfl⟩, ⟨_, rfl⟩, ⟨_, rfl⟩, _, rfl⟩

end Sys2Proof.Tests
end

section
/-! PROOFS. The laws of the ALU's arithmetic (00_scope.md R12, 41_arithmetic.md R103): the wrap keeps the residue modulo
2^64, so the ALU's add and multiply are those of the ring `BitVec 64`. -/

namespace Sys2Proof

/-- R12: the wrapped word is congruent to the integer modulo 2^64. -/
theorem dvd_toInt_wrap_sub (z : Int) : (2 : Int) ^ 64 ∣ (wrap z).toInt - z := by
  rw [toInt_wrap]
  exact Int.dvd_bmod_sub_self

end Sys2Proof

namespace Sys2Proof.Machine

theorem aluAdd_eq_add (a b : Word) : aluAdd a b = a + b := by
  simp [aluAdd, wrap, BitVec.ofInt_add]

theorem aluMul_eq_mul (a b : Word) : aluMul a b = a * b := by
  simp [aluMul, wrap, BitVec.ofInt_mul]

/-- Settles O36: congruence and exactness are the wrap's, commutativity and associativity those of the ring `BitVec 64`. -/
theorem aluArithmeticLaws : Obligations.AluArithmeticLaws := by
  intro a b c
  refine ⟨dvd_toInt_wrap_sub _, dvd_toInt_wrap_sub _, ?_, ?_, ?_, ?_, toInt_wrap_of_range, toInt_wrap_of_range⟩
  · rw [aluAdd_eq_add, aluAdd_eq_add, BitVec.add_comm]
  · rw [aluMul_eq_mul, aluMul_eq_mul, BitVec.mul_comm]
  · simp only [aluAdd_eq_add, BitVec.add_assoc]
  · simp only [aluMul_eq_mul, BitVec.mul_assoc]

end Sys2Proof.Machine
end

section
/-! PROOFS. The Memory Store as a finite map (10_state.md R29, R57): the list is determined by what it reads as. -/

namespace Sys2Proof.Machine

/-- An address that does not read as unwritten is listed, with the word it reads as. -/
theorem mem_of_read_ne {m : Memory} {a : Nat} (h : m.read a ≠ unwritten) : (a, m.read a) ∈ m := by
  induction m with
  | nil => exact absurd rfl h
  | cons c t ih =>
    obtain ⟨k, w⟩ := c
    rw [read_cons] at h ⊢
    split_ifs at h ⊢ with hk
    · simp [hk]
    · exact List.mem_cons_of_mem _ (ih h)

/-- The cells of a canonical memory are the graph of its written words. -/
theorem mem_iff_read {m : Memory} (h : m.wf) {c : Cell} : c ∈ m ↔ m.read c.1 = c.2 ∧ c.2 ≠ unwritten := by
  refine ⟨fun hc => ⟨read_of_mem h hc, (h.2 c hc).1⟩, ?_⟩
  obtain ⟨a, w⟩ := c
  rintro ⟨hread, hw⟩
  obtain rfl : m.read a = w := hread
  exact mem_of_read_ne hw

/-- Settles O33: both are the strictly rising list of the same cells. -/
theorem equalReadsEqualMemories : Obligations.EqualReadsEqualMemories := by
  intro m n hm hn hread
  have : Std.Irrefl fun x y : Cell => x.1 < y.1 := ⟨fun x => lt_irrefl x.1⟩
  refine hm.1.eq_of_mem_iff hn.1 fun c => ?_
  rw [mem_iff_read hm, mem_iff_read hn, hread]

/-- Settles O32: `write_wf` and the two reads after a write. -/
theorem memWriteResult : Obligations.MemWriteResult := by
  intro a v s hs
  refine ⟨fun ha => memWrite_of_neg ha v s, fun ha => ?_⟩
  exact ⟨_, memWrite_of_nonneg ha v s, write_wf hs (toNat_lt_of_nonneg ha) v, read_write_same hs _ v,
    fun b hb => read_write_other s.mem hb v⟩

/-- Settles O1: the launched machine is `launch_eq`, and its memory reads as the tokens. -/
theorem resetAndLaunchValues : Obligations.ResetAndLaunchValues := by
  refine ⟨fun s => ⟨rfl, rfl, rfl, rfl, rfl, rfl⟩, ⟨rfl, rfl, rfl, fun _ => rfl, rfl⟩, fun s tokens inputs a ha => ?_⟩
  rw [launch_eq]
  exact ⟨by simp [read_ofTokens tokens 0 a ha], rfl, rfl⟩

end Sys2Proof.Machine
end

section
/-! PROOFS. What one step can do, in the two ways a cycle ends (R161): it takes a fault with a legal record, or the operation
of the instruction at the pc completes. The writers of run_state, memory and the pc, and the invariant, follow from it. -/

namespace Sys2Proof.Machine

/-- R154: the record of a `NegativeAddress` of a negative address is a legal one. -/
theorem negativeAddress_wf {a : Word} (ha : a.toInt < 0) (pc : Word) :
    FaultRecord.wf ⟨(negativeAddress a).kind, pc, (negativeAddress a).value, (negativeAddress a).slot⟩ := ⟨rfl, ha⟩

/-- What an operation raises makes a legal record. -/
theorem operation_error_wf {i : Instr} {ea : Eas} {s : State} {r : Raised} (h : operation i ea s = .error r) (pc : Word) :
    FaultRecord.wf ⟨r.kind, pc, r.value, r.slot⟩ := by
  rcases operation_error h with ⟨a, ha, rfl⟩ | ⟨-, -, rfl⟩
  · exact negativeAddress_wf ha pc
  · exact ⟨rfl, rfl⟩

/-- R161: a step takes a fault with a legal record, or completes the operation of the instruction at the pc. -/
theorem step_raises_or_completes {s t : State} (h : step s = .next t) :
    (∃ r : Raised, FaultRecord.wf ⟨r.kind, s.pc, r.value, r.slot⟩ ∧ t = s.raise r) ∨
    (∃ i, decode (s.mem.read s.pc.toNat) = .ok i ∧ operation i (instrAddrs i s) s = .ok t) := by
  obtain ⟨-, ⟨hpc, rfl⟩ | ⟨-, e, hd, rfl⟩ | ⟨-, i, hd, hx⟩⟩ := step_cases h
  · exact .inl ⟨_, negativeAddress_wf hpc _, rfl⟩
  · exact .inl ⟨_, decodeFault_wf hd s, rfl⟩
  · rcases exec_cases i s with ⟨-, u, hop, he⟩ | ⟨-, r, hop, he⟩ | ⟨-, k, hk, he⟩ <;> rw [he] at hx <;> cases hx
    · exact .inr ⟨i, hd, hop⟩
    · exact .inl ⟨r, operation_error_wf hop _, rfl⟩
    · exact .inl ⟨_, negativeAddress_wf hk _, rfl⟩

/-! The fields an operation that completes leaves alone. -/

/-- A completed operation records no fault. -/
theorem operation_ok_fault {i : Instr} {ea : Eas} {s t : State} (h : operation i ea s = .ok t) : t.fault = s.fault := by
  rcases operation_ok h with ⟨-, -, v, rfl⟩ | ⟨-, -, -, v, rest, -, rfl⟩ | ⟨-, rfl⟩ | ⟨-, -, -, rfl⟩ |
    ⟨-, rfl | ⟨-, rfl⟩⟩ | ⟨-, rfl⟩ <;> rfl

/-- R23: an operation that completes writes run_state only as the halt does. -/
theorem operation_ok_runState {i : Instr} {ea : Eas} {s t : State} (h : operation i ea s = .ok t) :
    t.runState = s.runState ∨ (i.opcode = 99 ∧ t.runState = .halted) := by
  rcases operation_ok h with ⟨-, -, v, rfl⟩ | ⟨-, -, -, v, rest, -, rfl⟩ | ⟨-, rfl⟩ | ⟨-, -, -, rfl⟩ |
    ⟨-, rfl | ⟨-, rfl⟩⟩ | ⟨hi, rfl⟩
  case inr.inr.inr.inr.inr => exact .inr ⟨hi, rfl⟩
  all_goals exact .inl rfl

/-- R29: an operation that completes leaves memory alone, or is one of ADD, MUL, LT, EQ and IN and writes one word at a
valid address. -/
theorem operation_ok_mem {i : Instr} {ea : Eas} {s t : State} (h : operation i ea s = .ok t) :
    t.mem = s.mem ∨ ((i.arity = 3 ∨ i.opcode = 3) ∧ ∃ (a v : Word), 0 ≤ a.toInt ∧ t.mem = s.mem.write a.toNat v) := by
  rcases operation_ok h with ⟨ha, hi, v, rfl⟩ | ⟨hi, ha, -, v, rest, -, rfl⟩ | ⟨-, rfl⟩ | ⟨-, -, -, rfl⟩ |
    ⟨-, rfl | ⟨-, rfl⟩⟩ | ⟨-, rfl⟩
  · exact .inr ⟨.inl hi, _, v, ha, rfl⟩
  · exact .inr ⟨.inr hi, _, v, ha, rfl⟩
  all_goals exact .inl rfl

theorem eq_hlt_of_opcode {i : Instr} (h : i.opcode = 99) : ∃ m0 m1 m2, i = .hlt m0 m1 m2 := by
  cases i with
  | hlt m0 m1 m2 => exact ⟨m0, m1, m2, rfl⟩
  | add | mul | inp | out | jt | jf | lt | eq => cases h

theorem opcode_of_arity_three {i : Instr} (h : i.arity = 3) :
    i.opcode = 1 ∨ i.opcode = 2 ∨ i.opcode = 7 ∨ i.opcode = 8 := by
  cases i with
  | add | mul | lt | eq => simp [Instr.opcode]
  | inp | out | jt | jf | hlt => cases h

/-- Settles O5: no fault writes run_state, and of the operations only the halt does. -/
theorem runStateWriters : Obligations.RunStateWriters := by
  constructor
  · intro s e hne
    cases e with
    | reset => exact .inl rfl
    | start => exact .inr rfl
    | load | supply | inReady | outReady => exact absurd (by simp [State.apply]) hne
  · intro s t h hne
    rcases step_raises_or_completes h with ⟨r, -, rfl⟩ | ⟨i, hd, hop⟩
    · exact absurd (raise_runState s r) hne
    · obtain ⟨hi, ht⟩ := (operation_ok_runState hop).resolve_left hne
      obtain ⟨m0, m1, m2, rfl⟩ := eq_hlt_of_opcode hi
      exact ⟨ht, m0, m1, m2, hd⟩

/-- A load outside Idle changes nothing (log entry 9). -/
theorem load_of_not_idle {s : State} (h : s.runState ≠ .idle) (tokens : List Word) : s.load tokens = s := by
  simp [State.load, h]

/-- Settles O6: no fault writes memory, and of the operations only those named do. -/
theorem memoryWriters : Obligations.MemoryWriters := by
  constructor
  · intro s e hne
    cases e with
    | load tokens =>
      refine ⟨?_, tokens, rfl⟩
      by_contra hidle
      exact hne (congrArg State.mem (load_of_not_idle hidle tokens))
    | reset | supply | start | inReady | outReady => exact absurd (by simp [State.apply]) hne
  · intro s t h hne
    rcases step_raises_or_completes h with ⟨r, -, rfl⟩ | ⟨i, hd, hop⟩
    · exact absurd (raise_mem s r) hne
    · obtain ⟨hi, -⟩ := (operation_ok_mem hop).resolve_left hne
      refine ⟨i, hd, ?_⟩
      rcases hi with hi | hi
      · have := opcode_of_arity_three hi
        tauto
      · exact .inr (.inr (.inl hi))

/-! The invariant. -/

/-- Settles O7. -/
theorem resetMeetsInvariant : Obligations.ResetMeetsInvariant where
  memory := wf_nil
  record := fun _ h => nomatch h
  entry := fun _ => rfl

/-- Past start and with no fault recorded, the invariant is the canonical form of memory. -/
theorem inv_of_started {s : State} (hm : s.mem.wf) (hf : s.fault = none) (hr : s.runState ≠ .idle) : s.Inv where
  memory := hm
  record := fun r h => by rw [hf] at h; cases h
  entry := fun h => absurd h hr

/-- An operation that completes keeps the canonical form. -/
theorem operation_ok_wf {i : Instr} {ea : Eas} {s t : State} (h : operation i ea s = .ok t) (hs : s.mem.wf) :
    t.mem.wf := by
  rcases operation_ok_mem h with e | ⟨-, a, v, ha, e⟩ <;> rw [e]
  · exact hs
  · exact write_wf hs (toNat_lt_of_nonneg ha) v

/-- Settles O8: a fault taken writes a legal record (`raise_inv`), and a completed operation leaves a started core with no
fault and a canonical memory. -/
theorem stepKeepsInvariant : Obligations.StepKeepsInvariant := by
  intro s t hinv h
  obtain ⟨hrun, hfault⟩ := (step_cases h).1
  rcases step_raises_or_completes h with ⟨r, hwf, rfl⟩ | ⟨i, -, hop⟩
  · exact raise_inv hinv hrun hfault hwf
  · refine inv_of_started (operation_ok_wf hop hinv.memory) ((operation_ok_fault hop).trans hfault) ?_
    rcases operation_ok_runState hop with hr | ⟨-, hr⟩ <;> simp [hr, hrun]

theorem start_runState_ne_idle (s : State) : s.start.runState ≠ .idle := by
  unfold State.start
  split
  · simp
  · assumption

/-- R184: a start while Running is ignored. -/
theorem start_of_running {s : State} (h : s.runState = .running) : s.start = s := by
  simp [State.start, h]

/-- Settles O9: a recorded fault stands only while Running, where start is ignored; the other events keep or clear the record,
and `apply_wf` keeps memory. -/
theorem eventsKeepInvariant : Obligations.EventsKeepInvariant := by
  intro s e hinv
  obtain ⟨hmem, hrecord, hentry⟩ := hinv
  have hwf := apply_wf hmem e
  cases e with
  | reset => exact ⟨hwf, fun _ h => (nomatch h), fun _ => rfl⟩
  | start =>
    refine ⟨hwf, fun r hr => ?_, fun hidle => absurd hidle (start_runState_ne_idle s)⟩
    have hstands : s.fault = some r := by simpa [State.apply] using hr
    rw [State.apply, start_of_running (hrecord r hstands).1]
    exact hrecord r hstands
  | load | supply | inReady | outReady =>
    exact ⟨hwf, by simpa [State.apply] using hrecord, by simpa [State.apply] using hentry⟩

/-! The pc (R22, R91). -/

theorem aluDataPath_ok_pc {f : Word → Word → Word} {ea : Eas} {s t : State} (h : aluDataPath f ea s = .ok t) :
    t.pc = wrap (s.pc.toInt + 4) := by
  rcases aluDataPath_cases f ea s with ⟨-, -, -, e⟩ | ⟨-, e⟩ | ⟨-, -, e⟩ | ⟨-, -, -, e⟩ <;> rw [e] at h <;> cases h
  rfl

theorem opIn_ok_pc {ea : Eas} {s t : State} (h : opIn ea s = .ok t) :
    t.pc = if s.inPort.ready = false then s.pc else wrap (s.pc.toInt + 2) := by
  rcases opIn_cases ea s with ⟨-, e⟩ | ⟨-, hr, e⟩ | ⟨-, -, -, e⟩ | ⟨v, rest, -, hr, -, e⟩ <;> rw [e] at h <;> cases h <;>
    simp [hr]

theorem opOut_ok_pc {ea : Eas} {s t : State} (h : opOut ea s = .ok t) :
    t.pc = if s.outPort.ready = false then s.pc else wrap (s.pc.toInt + 2) := by
  rcases opOut_cases ea s with ⟨-, e⟩ | ⟨-, hr, e⟩ | ⟨-, hr, e⟩ <;> rw [e] at h <;> cases h <;> simp [hr]

theorem jumpPath_ok_pc {taken : Word → Bool} {ea : Eas} {s t : State} (h : jumpPath taken ea s = .ok t) :
    t.pc = if taken (s.mem.read ea.ea0.toNat) then s.mem.read ea.ea1.toNat else wrap (s.pc.toInt + 3) := by
  rcases jumpPath_cases taken ea s with ⟨-, e⟩ | ⟨-, ht, e⟩ | ⟨-, -, -, e⟩ | ⟨-, ht, -, e⟩ <;> rw [e] at h <;> cases h <;>
    simp [ht]

/-- R22: a fault keeps the pc, and only a fault leaves a record. -/
theorem step_pc_of_fault {s t : State} (h : step s = .next t) (ht : t.fault ≠ none) : t.pc = s.pc := by
  rcases step_raises_or_completes h with ⟨r, -, rfl⟩ | ⟨i, -, hop⟩
  · exact raise_pc s r
  · exact absurd ((operation_ok_fault hop).trans (step_cases h).1.2) ht

/-- A step that records no fault completed the operation of the instruction at the pc. -/
theorem step_completes {s t : State} {i : Instr} (h : step s = .next t) (ht : t.fault = none)
    (hd : decode (s.mem.read s.pc.toNat) = .ok i) : operation i (instrAddrs i s) s = .ok t := by
  rcases step_raises_or_completes h with ⟨r, -, rfl⟩ | ⟨j, hj, hop⟩
  · exact absurd ht (raise_fault_ne r)
  · cases hd.symm.trans hj
    exact hop

/-- R22, R92: an advance past the top of the address space wraps to a negative pc. -/
theorem wrap_advance_past_top {a : Word} {n : Nat} (hn : n ≤ 4) (h : (9223372036854775807 : Int) - n < a.toInt) :
    (wrap (a.toInt + n)).toInt < 0 := by
  have := word_toInt_lt a
  rw [toInt_wrap, Int.bmod_def]
  omega

/-- Settles O17: one lemma per operation for the pc it leaves. -/
theorem pcAfterInstruction : Obligations.PcAfterInstruction := by
  refine ⟨fun s t => step_pc_of_fault, ?_, ?_⟩
  · intro s t i _ _ hd h ht
    have hop := step_completes h ht hd
    cases i with
    | add | mul | lt | eq => exact aluDataPath_ok_pc hop
    | inp => exact opIn_ok_pc hop
    | out => exact opOut_ok_pc hop
    | jt => simpa [takenIfTrue] using jumpPath_ok_pc hop
    | jf => simpa [takenIfFalse] using jumpPath_ok_pc hop
    | hlt => cases hop; rfl
  · intro s n hn hpc
    have hneg := wrap_advance_past_top (a := s.pc) (n := n) (by omega) hpc
    exact ⟨hneg, memRead_of_neg hneg _⟩

end Sys2Proof.Machine
end

section
/-! PROOFS. The two ports over a run (R30, R31, R195). -/

namespace Sys2Proof.Machine

/-- R195: between `s` and `t` at most `n` words left the front of in_seq or came in at the end of out_seq. -/
def TransfersWithin (n : Nat) (s t : State) : Prop :=
  ∃ taken emitted : List Word, s.inPort.seq = taken ++ t.inPort.seq ∧ t.outPort.seq = s.outPort.seq ++ emitted ∧
    taken.length + emitted.length ≤ n

theorem TransfersWithin.of_same {s t : State} (hin : t.inPort.seq = s.inPort.seq) (hout : t.outPort.seq = s.outPort.seq)
    (n : Nat) : TransfersWithin n s t := ⟨[], [], by simp [hin], by simp [hout], by simp⟩

theorem TransfersWithin.trans {m n : Nat} {s t u : State} (h : TransfersWithin m s t) (h' : TransfersWithin n t u) :
    TransfersWithin (m + n) s u := by
  obtain ⟨taken, emitted, hin, hout, hlen⟩ := h
  obtain ⟨taken', emitted', hin', hout', hlen'⟩ := h'
  refine ⟨taken ++ taken', emitted ++ emitted', ?_, ?_, ?_⟩
  · rw [hin, hin', List.append_assoc]
  · rw [hout', hout, List.append_assoc]
  · simp only [List.length_append]; omega

theorem operation_ok_transfers {i : Instr} {ea : Eas} {s t : State} (h : operation i ea s = .ok t) :
    TransfersWithin 1 s t := by
  rcases operation_ok h with ⟨-, -, v, rfl⟩ | ⟨-, -, -, v, rest, hs, rfl⟩ | ⟨-, rfl⟩ | ⟨-, -, -, rfl⟩ |
    ⟨-, rfl | ⟨-, rfl⟩⟩ | ⟨-, rfl⟩
  case inr.inl => exact ⟨[v], [], hs, by simp, by simp⟩
  case inr.inr.inr.inl => exact ⟨[], [s.mem.read ea.ea0.toNat], rfl, rfl, by simp⟩
  all_goals exact .of_same rfl rfl 1

/-- R195: one step makes at most one transfer. -/
theorem step_transfers {s t : State} (h : step s = .next t) : TransfersWithin 1 s t := by
  rcases step_raises_or_completes h with ⟨r, -, rfl⟩ | ⟨i, -, hop⟩
  · exact .of_same (by simp) (by simp) 1
  · exact operation_ok_transfers hop

/-- Settles O43: induction on the number of steps, the transfers of the first step before those of the rest. -/
theorem portTransfersInOrder : Obligations.PortTransfersInOrder := by
  intro n
  induction n with
  | zero =>
    intro s t h
    cases h
    exact TransfersWithin.of_same rfl rfl 0
  | succ n ih =>
    intro s t h
    obtain ⟨u, hu, hrest⟩ := run_next h
    rw [Nat.add_comm]
    exact (step_transfers hu).trans (ih u t hrest)

end Sys2Proof.Machine
end

section
/-! PROOFS. What the output port received has no influence (R31, R114): putting words in front of out_seq commutes with every
operation, hence with the step. -/

namespace Sys2Proof.Machine

/-- R31: the state with the words `l` received before everything in out_seq. -/
def State.prependOutput (l : List Word) (s : State) : State :=
  { s with outPort := { s.outPort with seq := l ++ s.outPort.seq } }

/-- The outcome with `f` applied to a next state. -/
def mapNext (f : State → State) : Host.Outcome State Fault Refusal → Host.Outcome State Fault Refusal
  | .next t => .next (f t)
  | .fault e => .fault e
  | .refused r => .refused r

@[simp] theorem mapNext_next (f : State → State) (t : State) : mapNext f (.next t) = .next (f t) := rfl

/-! Reads and faults do not see out_seq. -/

@[simp] theorem status_prependOutput (l : List Word) (s : State) : (s.prependOutput l).status = s.status := rfl
@[simp] theorem memRead_prependOutput (a : Word) (l : List Word) (s : State) :
    memRead a (s.prependOutput l) = memRead a s := rfl
@[simp] theorem fetch_prependOutput (l : List Word) (s : State) : fetch (s.prependOutput l) = fetch s := rfl

@[simp] theorem resolveSlot_prependOutput (i : Slot) (m : Mode) (l : List Word) (s : State) :
    resolveSlot i m (s.prependOutput l) = resolveSlot i m s := by cases m <;> rfl

@[simp] theorem resolve_prependOutput (m0 m1 m2 : Mode) (l : List Word) (s : State) :
    resolve m0 m1 m2 (s.prependOutput l) = resolve m0 m1 m2 s := by simp only [resolve, resolveSlot_prependOutput]

@[simp] theorem firstFault_prependOutput (ps : List (Slot × Mode)) (l : List Word) (s : State) :
    firstFault ps (s.prependOutput l) = firstFault ps s := by
  induction ps with
  | nil => rfl
  | cons p rest ih => simp only [firstFault, resolveSlot_prependOutput, ih]

@[simp] theorem decodeFault_prependOutput (e : DecodeError) (l : List Word) (s : State) :
    decodeFault e (s.prependOutput l) = decodeFault e s := by simp only [decodeFault, firstFault_prependOutput]

/-! The updates commute with it. -/

@[simp] theorem raise_prependOutput (r : Raised) (l : List Word) (s : State) :
    (s.prependOutput l).raise r = (s.raise r).prependOutput l := by
  rw [raise_eq, raise_eq]; rfl

theorem conclude_prependOutput (l : List Word) (s : State) (x : Except Raised State) :
    (s.prependOutput l).conclude (x.map (State.prependOutput l)) = (s.conclude x).prependOutput l := by
  cases x with
  | ok t => rfl
  | error r => exact raise_prependOutput r l s

theorem memWrite_prependOutput (a v : Word) (l : List Word) (s : State) :
    memWrite a v (s.prependOutput l) = (memWrite a v s).map (State.prependOutput l) := by
  unfold memWrite
  split <;> rfl

theorem inNext_prependOutput (l : List Word) (s : State) :
    inNext (s.prependOutput l) = ((inNext s).1, (inNext s).2.prependOutput l) := by
  obtain ⟨pc, run, fault, mem, ⟨seq, ready⟩, out⟩ := s
  cases ready with
  | false => rfl
  | true => cases seq <;> rfl

/-- R111: the port adds at the end of out_seq, which the words in front do not see. -/
theorem outEmit_prependOutput (v : Word) (l : List Word) (s : State) :
    outEmit v (s.prependOutput l) = ((outEmit v s).1, (outEmit v s).2.prependOutput l) := by
  cases h : s.outPort.ready <;> simp [outEmit, State.prependOutput, h]

theorem aluDataPath_prependOutput (f : Word → Word → Word) (ea : Eas) (l : List Word) (s : State) :
    aluDataPath f ea (s.prependOutput l) = (aluDataPath f ea s).map (State.prependOutput l) := by
  simp only [aluDataPath, memRead_prependOutput, memWrite_prependOutput]
  cases memRead ea.ea0 s with
  | error r => rfl
  | ok a =>
    cases memRead ea.ea1 s with
    | error r => rfl
    | ok b => dsimp only; cases memWrite ea.ea2 (f a b) s <;> rfl

theorem jumpPath_prependOutput (taken : Word → Bool) (ea : Eas) (l : List Word) (s : State) :
    jumpPath taken ea (s.prependOutput l) = (jumpPath taken ea s).map (State.prependOutput l) := by
  simp only [jumpPath, memRead_prependOutput]
  cases memRead ea.ea0 s with
  | error r => rfl
  | ok c =>
    dsimp only
    split
    · cases memRead ea.ea1 s <;> rfl
    · rfl

theorem opIn_prependOutput (ea : Eas) (l : List Word) (s : State) :
    opIn ea (s.prependOutput l) = (opIn ea s).map (State.prependOutput l) := by
  simp only [opIn, inNext_prependOutput]
  split
  · rfl
  · obtain ⟨answer, t⟩ := inNext s
    cases answer with
    | value v =>
      simp only [memWrite_prependOutput]
      cases memWrite ea.ea0 v t <;> rfl
    | exhausted | notReady => rfl

theorem opOut_prependOutput (ea : Eas) (l : List Word) (s : State) :
    opOut ea (s.prependOutput l) = (opOut ea s).map (State.prependOutput l) := by
  simp only [opOut, memRead_prependOutput, outEmit_prependOutput]
  cases memRead ea.ea0 s with
  | error r => rfl
  | ok v =>
    dsimp only
    obtain ⟨answer, t⟩ := outEmit v s
    cases answer <;> rfl

theorem operation_prependOutput (i : Instr) (ea : Eas) (l : List Word) (s : State) :
    operation i ea (s.prependOutput l) = (operation i ea s).map (State.prependOutput l) := by
  cases i with
  | add | mul | lt | eq => exact aluDataPath_prependOutput _ ea l s
  | inp => exact opIn_prependOutput ea l s
  | out => exact opOut_prependOutput ea l s
  | jt | jf => exact jumpPath_prependOutput _ ea l s
  | hlt => rfl

theorem exec_prependOutput (i : Instr) (l : List Word) (s : State) :
    exec i (s.prependOutput l) = mapNext (State.prependOutput l) (exec i s) := by
  rw [exec_eq, exec_eq, runOperation, runOperation, resolve_prependOutput]
  cases resolve i.mode0 i.mode1 i.mode2 s with
  | error r => simp
  | ok ea => simp [operation_prependOutput, conclude_prependOutput]

theorem step_prependOutput (l : List Word) (s : State) :
    step (s.prependOutput l) = mapNext (State.prependOutput l) (step s) := by
  unfold step
  rw [status_prependOutput, fetch_prependOutput]
  cases s.status with
  | notStarted | cleanEnd | errorTerminal => rfl
  | notEnded =>
    cases fetch s with
    | error r => simp
    | ok iw =>
      cases hd : decode iw with
      | error e => simp [hd]
      | ok i => simp [hd, exec_prependOutput]

/-- Settles O44: the step commutes with putting words in front (`step_prependOutput`). -/
theorem outputRecordIsInvisible : Obligations.OutputRecordIsInvisible := by
  intro s l
  refine (step_prependOutput l s).trans ?_
  cases step s <;> rfl

end Sys2Proof.Machine
end

section
/-! PROOFS. What MemRead gives, when a write leaves the Memory Store as it is (R42, R44), and a store over the next
instruction (R55). -/

namespace Sys2Proof.Machine

/-- R44: an address that is not listed reads as unwritten. -/
theorem read_of_unlisted {m : Memory} {a : Nat} (h : ∀ c ∈ m, c.1 ≠ a) : m.read a = unwritten := by
  by_contra hread
  exact h _ (mem_of_read_ne hread) rfl

/-- Settles O31: the two cases of `memRead`; an unlisted address reads as unwritten. -/
theorem memReadResult : Obligations.MemReadResult := by
  intro a s
  refine ⟨fun ha => memRead_of_neg ha s, fun ha => memRead_of_nonneg ha s, fun ha hunlisted => ?_⟩
  rw [memRead_of_nonneg ha, read_of_unlisted hunlisted, unwritten]

/-- R44: the canonical form holds one list for each memory, so writing the word that is read gives the same list. -/
theorem write_read_self {m : Memory} (h : m.wf) (a : Nat) : m.write a (m.read a) = m := by
  induction m with
  | nil => simp [Memory.write]
  | cons c t ih =>
    obtain ⟨k, w⟩ := c
    obtain ⟨hlt, hw, -, ht⟩ := wf_cons.1 h
    rw [read_cons]
    rcases lt_trichotomy a k with hak | rfl | hka
    · have hunwritten : Memory.read t a = unwritten := read_below fun c hc => hak.trans (hlt c hc)
      simp [Memory.write, hak, hak.ne', hunwritten]
    · simp [Memory.write, hw]
    · simp [Memory.write, hka.ne, hka.ne', hka.not_gt, ih ht]

/-- Settles O34: `write_read_self`, after the write of 0 has replaced the write before it (`write_write`). -/
theorem rewriteLeavesMemory : Obligations.RewriteLeavesMemory := by
  intro m a v h
  refine ⟨write_read_self h a, fun hread => ?_⟩
  rw [write_write m a v 0 h, ← hread, write_read_self h]

/-- R100: at three non-negative addresses the ALU data path completes. -/
theorem aluDataPath_of_nonneg {ea : Eas} (h0 : 0 ≤ ea.ea0.toInt) (h1 : 0 ≤ ea.ea1.toInt) (h2 : 0 ≤ ea.ea2.toInt)
    (f : Word → Word → Word) (s : State) :
    aluDataPath f ea s = .ok { s with
      mem := s.mem.write ea.ea2.toNat (f (s.mem.read ea.ea0.toNat) (s.mem.read ea.ea1.toNat)),
      pc := wrap (s.pc.toInt + 4) } := by
  rcases aluDataPath_cases f ea s with ⟨-, -, -, e⟩ | ⟨hneg, -⟩ | ⟨-, hneg, -⟩ | ⟨-, -, hneg, -⟩
  · exact e
  all_goals omega

/-- R55: a word written at the pc is the word fetched. -/
theorem fetch_write_pc {s : State} (h : s.mem.wf) (hpc : 0 ≤ s.pc.toInt) (v : Word) :
    fetch { s with mem := s.mem.write s.pc.toNat v } = .ok v :=
  (memRead_of_nonneg hpc _).trans (congrArg _ (read_write_same h _ v))

/-- R55, R191: an ALU cycle that stores at the address it advances to leaves its result as the next word fetched. -/
theorem runOperation_alu_store_fetched {m0 m1 m2 : Mode} {s : State} (hs : s.mem.wf) (hread : slotsReadable m0 m1 m2 s)
    (h0 : 0 ≤ (effectiveAddrs m0 m1 m2 s).ea0.toInt) (h1 : 0 ≤ (effectiveAddrs m0 m1 m2 s).ea1.toInt)
    (h2 : 0 ≤ (effectiveAddrs m0 m1 m2 s).ea2.toInt)
    (hnext : (effectiveAddrs m0 m1 m2 s).ea2 = wrap (s.pc.toInt + 4)) (f : Word → Word → Word) :
    ∃ t, runOperation m0 m1 m2 (aluDataPath f) s = .next t ∧
      fetch t = .ok (f (s.mem.read (effectiveAddrs m0 m1 m2 s).ea0.toNat)
        (s.mem.read (effectiveAddrs m0 m1 m2 s).ea1.toNat)) := by
  rw [runOperation_of_readable hread, aluDataPath_of_nonneg h0 h1 h2, conclude_ok]
  refine ⟨_, rfl, ?_⟩
  rw [hnext] at h2 ⊢
  exact fetch_write_pc (s := { s with pc := wrap (s.pc.toInt + 4) }) hs h2 _

/-- Settles O35: the four instructions are the ALU cycle with their own function. -/
theorem storeSeenByNextFetch : Obligations.StoreSeenByNextFetch := by
  intro m0 m1 m2 s hs hread ea h0 h1 h2 hnext p hp
  have hfetched := runOperation_alu_store_fetched hs hread h0 h1 h2 hnext
  simp only [List.mem_cons, List.not_mem_nil, or_false] at hp
  rcases hp with rfl | rfl | rfl | rfl
  · exact hfetched aluAdd
  · exact hfetched aluMul
  · exact hfetched aluLt
  · exact hfetched aluEq

end Sys2Proof.Machine
end

section
/-! PROOFS. The fields of the instruction word by its decimal digits (30_encoding.md R62, R67), the words the decoder accepts,
and what it raises for the others. -/

namespace Sys2Proof

theorem forall_slot {p : Slot → Prop} : (∀ k, p k) ↔ p 0 ∧ p 1 ∧ p 2 := by
  refine ⟨fun h => ⟨h 0, h 1, h 2⟩, fun ⟨h0, h1, h2⟩ k => ?_⟩
  rcases Machine.slot_cases k with rfl | rfl | rfl
  exacts [h0, h1, h2]

/-- R62: the opcode field of a non-negative word. -/
theorem opcodeField_eq_digits {iw : Word} (h : 0 ≤ iw.toInt) :
    opcodeField iw = (10 * digit 1 iw.toNat + digit 0 iw.toNat : Nat) := by
  rw [opcodeField_of_nonneg h, ← toNat_of_nonneg h]
  simp only [digit]
  omega

/-- R62: the mode field of slot `k` of a non-negative word. -/
theorem modeField_eq_digit {iw : Word} (h : 0 ≤ iw.toInt) (k : Slot) : modeField iw k = (digit (2 + k.val) iw.toNat : Nat) := by
  have hcast := toNat_of_nonneg h
  rcases Machine.slot_cases k with rfl | rfl | rfl
  · rw [modeField_zero_of_nonneg h, ← hcast]; rfl
  · rw [modeField_one_of_nonneg h, ← hcast]; rfl
  · rw [modeField_two_of_nonneg h, ← hcast]; rfl

/-- R67: the opcode field of a negative word has the word's sign and the digits of its absolute value. -/
theorem opcodeField_eq_neg_digits {iw : Word} (h : iw.toInt < 0) :
    opcodeField iw = -(10 * digit 1 iw.toInt.natAbs + digit 0 iw.toInt.natAbs : Nat) := by
  rw [opcodeField_of_neg h, ← Int.ofNat_natAbs_of_nonpos h.le]
  simp only [digit]
  omega

/-- R67: the mode field of slot `k` of a negative word has the word's sign and the digit of its absolute value. -/
theorem modeField_eq_neg_digit {iw : Word} (h : iw.toInt < 0) (k : Slot) :
    modeField iw k = -(digit (2 + k.val) iw.toInt.natAbs : Nat) := by
  have hcast := Int.ofNat_natAbs_of_nonpos h.le
  rcases Machine.slot_cases k with rfl | rfl | rfl
  · rw [modeField_zero_of_neg h, ← hcast]; rfl
  · rw [modeField_one_of_neg h, ← hcast]; rfl
  · rw [modeField_two_of_neg h, ← hcast]; rfl

/-- R67: a word that decodes is not negative, because a negative one has an opcode field of at most 0. -/
theorem nonneg_of_decode_ok {iw : Word} {i : Instr} (h : decode iw = .ok i) : 0 ≤ iw.toInt := by
  by_contra hneg
  have hfield := opcodeField_eq_neg_digits (not_le.1 hneg)
  have hopcode := (decode_ok.1 h).1
  have := opcode_range i
  omega

/-- R66, R71: a non-negative word decodes to an instruction iff its low five digits are the instruction's canonical word. -/
theorem decode_ok_iff_of_nonneg {iw : Word} (h : 0 ≤ iw.toInt) (i : Instr) :
    decode iw = .ok i ↔ iw.toInt % 100000 = (encode i).toInt := by
  rw [decode_ok, opcodeField_of_nonneg h, modeField_zero_of_nonneg h, modeField_one_of_nonneg h, modeField_two_of_nonneg h,
    encode_toInt]
  have hop := opcode_range i
  have h0 := toDigit_range i.mode0
  have h1 := toDigit_range i.mode1
  have h2 := toDigit_range i.mode2
  omega

theorem encode_toInt_range (i : Instr) : 0 ≤ (encode i).toInt ∧ (encode i).toInt < 100000 := by
  rw [encode_toInt]
  have hop := opcode_range i
  have h0 := toDigit_range i.mode0
  have h1 := toDigit_range i.mode1
  have h2 := toDigit_range i.mode2
  omega

/-- R71: the canonical word decodes to its instruction. -/
theorem decode_encode (i : Instr) : decode (encode i) = .ok i := by
  obtain ⟨hlow, hhigh⟩ := encode_toInt_range i
  exact (decode_ok_iff_of_nonneg hlow i).2 (Int.emod_eq_of_lt hlow hhigh)

/-- Settles O24: multiples of 100000 keep the low five digits (`decode_ok_iff_of_nonneg`). -/
theorem decodeOfEncode : Obligations.DecodeOfEncode := by
  intro i k hk hword
  obtain ⟨hlow, hhigh⟩ := encode_toInt_range i
  have hvalue := toInt_wrap_of_range (z := (encode i).toInt + 100000 * k) (by omega) hword
  rw [decode_ok_iff_of_nonneg (by omega), hvalue, Int.add_mul_emod_self_left, Int.emod_eq_of_lt hlow hhigh]

/-- Settles O25: `nonneg_of_decode_ok`, then `decode_ok_iff_of_nonneg`. -/
theorem decodedWordIsEncoding : Obligations.DecodedWordIsEncoding := by
  intro iw i h
  have hsign := nonneg_of_decode_ok h
  exact ⟨hsign, (decode_ok_iff_of_nonneg hsign i).1 h⟩

/-- Settles O27: the formulas of R63 on a non-negative word. -/
theorem fieldsAreDecimalDigits : Obligations.FieldsAreDecimalDigits := fun _ h =>
  ⟨opcodeField_eq_digits h, modeField_eq_digit h⟩

theorem opcode_mem_opcodes (i : Instr) : i.opcode ∈ Config.opcodes := by
  cases i <;> simp [Instr.opcode, Config.opcodes]

/-- R64: the legal mode values are the digits of the two modes. -/
theorem exists_toDigit_eq_iff {n : Nat} : (∃ m : Mode, (n : Int) = m.toDigit) ↔ n ∈ Config.modes := by
  simp only [Config.modes, List.mem_cons, List.not_mem_nil, or_false]
  constructor
  · rintro ⟨m, hm⟩
    have := toDigit_range m
    omega
  · rintro (rfl | rfl)
    · exact ⟨.position, rfl⟩
    · exact ⟨.immediate, rfl⟩

/-- R83, R89: what a failed decode raises: the mode value of a slot that names no mode, or, where every slot has a mode, the
opcode that is in no row of the table. -/
theorem decodeRaised_cases {iw : Word} {e : DecodeError} (h : decode iw = .error e) :
    (∃ k, (∀ m : Mode, modeField iw k ≠ m.toDigit) ∧
      Machine.decodeRaised e = Machine.invalidParameterMode (wrap (modeField iw k)) k) ∨
    ((∀ k, ∃ m : Mode, modeField iw k = m.toDigit) ∧ (∀ n ∈ Config.opcodes, opcodeField iw ≠ (n : Int)) ∧
      Machine.decodeRaised e = Machine.invalidOpcode (wrap (opcodeField iw))) := by
  have illegal : ∀ {k}, modeField iw k ≠ 0 ∧ modeField iw k ≠ 1 → ∀ m : Mode, modeField iw k ≠ m.toDigit := by
    rintro k ⟨hzero, hone⟩ (_ | _)
    exacts [hzero, hone]
  rcases decode_error h with ⟨hbad, rfl⟩ | ⟨m0, -, hbad, rfl⟩ | ⟨m0, m1, -, -, hbad, rfl⟩ |
    ⟨m0, m1, m2, h0, h1, h2, hop, rfl⟩
  · exact .inl ⟨0, illegal hbad, rfl⟩
  · exact .inl ⟨1, illegal hbad, rfl⟩
  · exact .inl ⟨2, illegal hbad, rfl⟩
  · exact .inr ⟨forall_slot.2 ⟨⟨m0, h0⟩, ⟨m1, h1⟩, ⟨m2, h2⟩⟩, hop, rfl⟩

/-- R71: the decoder accepts a word iff its opcode field is in the table and every mode field names a mode. -/
theorem exists_decode_ok_iff {iw : Word} :
    (∃ i, decode iw = .ok i) ↔
      (∃ n ∈ Config.opcodes, opcodeField iw = (n : Int)) ∧ ∀ k, ∃ m : Mode, modeField iw k = m.toDigit := by
  constructor
  · rintro ⟨i, hi⟩
    obtain ⟨hop, h0, h1, h2⟩ := decode_ok.1 hi
    exact ⟨⟨i.opcode, opcode_mem_opcodes i, hop⟩, forall_slot.2 ⟨⟨_, h0⟩, ⟨_, h1⟩, ⟨_, h2⟩⟩⟩
  · rintro ⟨⟨n, hn, hop⟩, hmodes⟩
    cases hd : decode iw with
    | ok i => exact ⟨i, rfl⟩
    | error e =>
      rcases decodeRaised_cases hd with ⟨k, hbad, -⟩ | ⟨-, hbad, -⟩
      · obtain ⟨m, hm⟩ := hmodes k
        exact absurd hm (hbad m)
      · exact absurd hop (hbad n hn)

/-- R62, R71: on a non-negative word the digits say what the fields say. -/
theorem wordWellFormed_iff {iw : Word} :
    wordWellFormed iw = true ↔ 0 ≤ iw.toInt ∧
      (10 * digit 1 iw.toNat + digit 0 iw.toNat ∈ Config.opcodes) ∧ ∀ k : Slot, digit (2 + k.val) iw.toNat ∈ Config.modes := by
  simp only [wordWellFormed, signWellFormed, opcodeWellFormed, modeWellFormed, Bool.and_eq_true, decide_eq_true_eq, and_assoc,
    forall_slot]

/-- Settles O26: the decoder's condition on the fields (`exists_decode_ok_iff`), read as digits; a negative word meets neither side. -/
theorem decodeAcceptsWellFormed : Obligations.DecodeAcceptsWellFormed := by
  intro iw
  rw [wordWellFormed_iff]
  rcases lt_or_ge iw.toInt 0 with hneg | hnonneg
  · refine ⟨fun ⟨i, hi⟩ => ?_, fun ⟨hsign, _⟩ => ?_⟩
    · exact absurd (nonneg_of_decode_ok hi) (not_le.2 hneg)
    · exact absurd hsign (not_le.2 hneg)
  · simp only [exists_decode_ok_iff, opcodeField_eq_digits hnonneg, modeField_eq_digit hnonneg, exists_toDigit_eq_iff,
      Int.natCast_inj, exists_eq_right', hnonneg, true_and]

end Sys2Proof
end

section
/-! PROOFS. The cycle of a negative instruction word (30_encoding.md R67): its decode fails, and below the top of the address
space nothing faults before it. -/

namespace Sys2Proof.Machine

/-- R84, R85: every slot can be read when the pc is at least three words below the top. -/
theorem slotReadable_of_pc_le {s : State} (h : 0 ≤ s.pc.toInt) (h' : s.pc.toInt ≤ 9223372036854775804) (k : Slot) (m : Mode) :
    slotReadable k m s := fun _ => by
  have := paramAddr_toInt h h' k
  omega

/-- R80, R160: where the slots can be read, the cycle of a word that does not decode records the decode's fault. -/
theorem step_of_decode_error {s : State} {e : DecodeError} (hs : s.canStep) (hpc : 0 ≤ s.pc.toInt)
    (hread : ∀ k m, slotReadable k m s) (hd : decode (s.mem.read s.pc.toNat) = .error e) :
    step s = .next { s with fault := some ⟨(decodeRaised e).kind, s.pc, (decodeRaised e).value, (decodeRaised e).slot⟩ } := by
  rw [step_running hs.1 hs.2, show fetch s = _ from memRead_of_nonneg hpc s]
  simp only [hd]
  rw [decodeFault_of_readable fun p _ => hread p.1 p.2, raise_of_no_fault hs.2]

/-- R67: what a negative word raises, by the digits of its absolute value. -/
theorem decodeRaised_of_neg {iw : Word} {e : DecodeError} (hneg : iw.toInt < 0) (hd : decode iw = .error e) :
    (∃ k : Slot, digit (2 + k.val) iw.toInt.natAbs ≠ 0 ∧ (decodeRaised e).kind = .invalidParameterMode ∧
      (decodeRaised e).value.toInt < 0) ∨
    ((∀ k : Slot, digit (2 + k.val) iw.toInt.natAbs = 0) ∧ (decodeRaised e).kind = .invalidOpcode ∧
      (decodeRaised e).value.toInt = -(10 * digit 1 iw.toInt.natAbs + digit 0 iw.toInt.natAbs : Nat)) := by
  have hfield := modeField_eq_neg_digit hneg
  rcases decodeRaised_cases hd with ⟨k, hbad, hr⟩ | ⟨hmodes, -, hr⟩ <;> rw [hr]
  · have hrange := modeField_range iw k
    have hvalue := toInt_wrap_of_range (z := modeField iw k) (by omega) (by omega)
    have hdigit : digit (2 + k.val) iw.toInt.natAbs ≠ 0 := fun hzero => hbad .position (by rw [hfield k, hzero]; rfl)
    refine .inl ⟨k, hdigit, rfl, ?_⟩
    show (wrap (modeField iw k)).toInt < 0
    rw [hvalue, hfield k]
    omega
  · have hrange := opcodeField_range iw
    have hvalue := toInt_wrap_of_range (z := opcodeField iw) (by omega) (by omega)
    refine .inr ⟨fun k => ?_, rfl, hvalue.trans (opcodeField_eq_neg_digits hneg)⟩
    obtain ⟨m, hm⟩ := hmodes k
    have := toDigit_range m
    rw [hfield k] at hm
    omega

/-- Settles O22: the decode fails (`nonneg_of_decode_ok`), its fault is the one recorded (`step_of_decode_error`), and
`decodeRaised_of_neg` says which it is. -/
theorem negativeWordFaults : Obligations.NegativeWordFaults := by
  intro s hs hpc htop hneg n
  have hrefused : ∀ i, decode (s.mem.read s.pc.toNat) ≠ .ok i := fun i hi => absurd (nonneg_of_decode_ok hi) (not_le.2 hneg)
  refine ⟨hrefused, ?_⟩
  cases hd : decode (s.mem.read s.pc.toNat) with
  | ok i => exact absurd hd (hrefused i)
  | error e =>
    refine ⟨_, step_of_decode_error hs hpc (slotReadable_of_pc_le hpc (by omega)) hd, rfl, ?_⟩
    have hslots : (∀ k : Slot, digit (2 + k.val) n = 0) ↔ digit 2 n = 0 ∧ digit 3 n = 0 ∧ digit 4 n = 0 := forall_slot
    rcases decodeRaised_of_neg hneg hd with ⟨k, hdigit, hraised⟩ | ⟨hdigits, hraised⟩
    · exact ⟨fun _ => hraised, fun hzero => absurd (hslots.2 hzero k) hdigit⟩
    · obtain ⟨h2, h3, h4⟩ := hslots.1 hdigits
      exact ⟨fun hsome => by simp [h2, h3, h4] at hsome, fun _ => hraised⟩

end Sys2Proof.Machine
end

section
/-! PROOFS. An assembler line at the pc (30_encoding.md R76): the decode of its first word gives its instruction, and each of
its parameter words stands where the operand's slot is resolved. -/

namespace Sys2Proof

/-- R68, R76: the words of a line with an instruction. -/
theorem assemble_of_instr {l : AsmLine} {i : Instr} (h : l.instr = some i) :
    assemble l = encode i :: l.operands.map Operand.param := by
  simp [assemble, h]

/-- R60, R76: a line names one operand for each parameter of its instruction. -/
theorem operands_length_of_instr {l : AsmLine} {i : Instr} (h : l.instr = some i) : l.operands.length = i.arity := by
  cases l <;> cases h <;> rfl

/-- R76: the instruction of a line has the modes of the line's operands. -/
theorem mode_of_operand {l : AsmLine} {i : Instr} (h : l.instr = some i) {k : Slot} {o : Operand}
    (ho : l.operands[k.val]? = some o) : i.mode k = o.mode := by
  rcases Machine.slot_cases k with rfl | rfl | rfl <;> cases l <;> cases h <;> cases ho <;> rfl

end Sys2Proof

namespace Sys2Proof.Machine

/-- R80: where the canonical word of an instruction stands at the pc, the step runs the instruction. -/
theorem step_of_encode_at_pc {s : State} {i : Instr} (hs : s.canStep) (hpc : 0 ≤ s.pc.toInt)
    (h : s.mem.read s.pc.toNat = encode i) : step s = exec i s := by
  rw [step_running hs.1 hs.2, show fetch s = _ from memRead_of_nonneg hpc s]
  simp only [h, decode_encode]

/-- R84: the parameter address of slot `k`, as an address of the Memory Store. -/
theorem paramAddr_toNat {pc : Word} (h : 0 ≤ pc.toInt) (h' : pc.toInt ≤ 9223372036854775804) (k : Slot) :
    (paramAddr pc k).toNat = pc.toNat + (k.val + 1) := by
  have hparam := paramAddr_toInt h h' k
  have := toNat_of_nonneg (a := paramAddr pc k) (by omega)
  have := toNat_of_nonneg h
  omega

/-- R76, R85, R88: a slot that has an operand's mode and its parameter word resolves to the address of the operand, which holds
the operand's value. -/
theorem effectiveAddr_of_param {o : Operand} {s : State} {k : Slot}
    (h : s.mem.read (paramAddr s.pc k).toNat = o.param) :
    effectiveAddr k o.mode s = operandAddr k o s ∧ s.mem.read (effectiveAddr k o.mode s).toNat = operandValue o s := by
  cases o with
  | position a => exact ⟨h, congrArg (fun w : Word => s.mem.read w.toNat) h⟩
  | immediate v => exact ⟨rfl, h⟩

/-- Settles O30: word 0 of the line decodes to its instruction, and word k + 1 is the parameter word of slot k. -/
theorem assembledLineRuns : Obligations.AssembledLineRuns := by
  intro l i s hi hs hpc htop hwords
  have hlength : (assemble l).length = i.length := by
    rw [assemble_of_instr hi, List.length_cons, List.length_map, operands_length_of_instr hi, Instr.length, Nat.add_comm]
  rw [assemble_of_instr hi] at hwords
  refine ⟨hlength, step_of_encode_at_pc hs hpc (hwords 0 (Nat.succ_pos _)), fun k o ho => ?_⟩
  have hk : k.val + 1 < (encode i :: l.operands.map Operand.param).length := by
    have := (List.getElem?_eq_some_iff.1 ho).1
    simpa using this
  have hparam : s.mem.read (paramAddr s.pc k).toNat = o.param := by
    rw [paramAddr_toNat hpc htop, hwords _ hk]
    simp [List.getD_eq_getElem?_getD, ho]
  rw [mode_of_operand hi ho]
  exact ⟨rfl, effectiveAddr_of_param hparam⟩

end Sys2Proof.Machine
end

section
/-! PROOFS. The step and the instruction cycle (40_cycle_decode_addressing.md R80 to R89): where the core has a step and what it
then is, the agreement with the cycle of the pseudocode, and the resolution of the three slots. -/

namespace Sys2Proof.Machine

/-! The stops (R80, R172, R182). -/

theorem step_of_fault_recorded {s : State} (h : s.fault ≠ none) : step s = .fault .errorTerminal := by
  obtain ⟨f, hf⟩ := Option.ne_none_iff_exists'.1 h
  simp [step, State.status, hf]

theorem step_of_halted {s : State} (hf : s.fault = none) (hr : s.runState = .halted) : step s = .fault .cleanEnd := by
  simp [step, State.status, hf, hr]

theorem step_of_idle {s : State} (hf : s.fault = none) (hr : s.runState = .idle) : step s = .fault .notStarted := by
  simp [step, State.status, hf, hr]

theorem step_of_not_canStep {s : State} (h : ¬ s.canStep) : ∃ f, step s = .fault f := by
  by_cases hf : s.fault = none
  · cases hr : s.runState with
    | idle => exact ⟨_, step_of_idle hf hr⟩
    | running => exact absurd ⟨hr, hf⟩ h
    | halted => exact ⟨_, step_of_halted hf hr⟩
  · exact ⟨_, step_of_fault_recorded hf⟩

/-! The step of a core that has one, by what its fetch and its decode give. -/

/-- R81: the fetch at a negative pc is the fault of the cycle. -/
theorem step_of_pc_neg {s : State} (hs : s.canStep) (hpc : s.pc.toInt < 0) :
    step s = .next (s.raise (negativeAddress s.pc)) := by
  rw [step_running hs.1 hs.2, show fetch s = _ from memRead_of_neg hpc s]

/-- R86: a word that does not decode ends the cycle with `decodeFault`. -/
theorem step_of_decode_refused {s : State} {e : DecodeError} (hs : s.canStep) (hpc : 0 ≤ s.pc.toInt)
    (hd : decode (s.mem.read s.pc.toNat) = .error e) : step s = .next (s.raise (decodeFault e s)) := by
  rw [step_running hs.1 hs.2, show fetch s = _ from memRead_of_nonneg hpc s]
  simp only [hd]

/-- R89: a word that decodes is run. -/
theorem step_of_decode_ok {s : State} {i : Instr} (hs : s.canStep) (hpc : 0 ≤ s.pc.toInt)
    (hd : decode (s.mem.read s.pc.toNat) = .ok i) : step s = exec i s := by
  rw [step_running hs.1 hs.2, show fetch s = _ from memRead_of_nonneg hpc s]
  simp only [hd]

/-! The literal cycle, in the same three cases. -/

theorem cycleBody_of_pc_neg {s : State} (hpc : s.pc.toInt < 0) : cycleBody s = .error (negativeAddress s.pc) := by
  rw [cycleBody, memRead_of_neg hpc]
  rfl

/-- R80: past the fetch, the literal cycle is its three slots and its case on the opcode field. -/
theorem cycleBody_of_pc_nonneg {s : State} (hpc : 0 ≤ s.pc.toInt) :
    cycleBody s =
      cycleSlot (s.mem.read s.pc.toNat) 0 s >>= fun ea0 =>
      cycleSlot (s.mem.read s.pc.toNat) 1 s >>= fun ea1 =>
      cycleSlot (s.mem.read s.pc.toNat) 2 s >>= fun ea2 =>
      cycleCase (opcodeField (s.mem.read s.pc.toNat)) { ea0 := ea0, ea1 := ea1, ea2 := ea2 } s := by
  rw [cycleBody, memRead_of_nonneg hpc]
  rfl

/-- R86: a slot resolved before a failure raises that failure, unless it faults itself. -/
theorem resolveSlot_bind_firstFault (k : Slot) (m : Mode) (rest : List (Slot × Mode)) (s : State) (r : Raised) :
    (resolveSlot k m s >>= fun _ => (.error ((firstFault rest s).getD r) : Except Raised State)) =
      .error ((firstFault ((k, m) :: rest) s).getD r) := by
  cases h : resolveSlot k m s <;> simp only [firstFault, h] <;> rfl

/-- R80, R86, R162: on a word that does not decode, the literal loop raises what the decoder's error and the slots before it
say. -/
theorem cycleBody_of_decode_refused {s : State} {e : DecodeError} (hpc : 0 ≤ s.pc.toInt)
    (hd : decode (s.mem.read s.pc.toNat) = .error e) : cycleBody s = .error (decodeFault e s) := by
  rw [cycleBody_of_pc_nonneg hpc, decodeFault]
  rcases decode_error hd with ⟨hbad, rfl⟩ | ⟨m0, h0, hbad, rfl⟩ | ⟨m0, m1, h0, h1, hbad, rfl⟩ |
    ⟨m0, m1, m2, h0, h1, h2, hbad, rfl⟩
  · rw [cycleSlot_bad hbad]
    rfl
  · rw [cycleSlot_valid h0, cycleSlot_bad hbad]
    exact resolveSlot_bind_firstFault 0 m0 [] s _
  · rw [cycleSlot_valid h0, cycleSlot_valid h1, cycleSlot_bad hbad]
    simp only [DecodeError.earlier, ← resolveSlot_bind_firstFault]
    rfl
  · rw [cycleSlot_valid h0, cycleSlot_valid h1, cycleSlot_valid h2]
    simp only [DecodeError.earlier, ← resolveSlot_bind_firstFault, cycleCase_bad hbad]
    rfl

/-- R86, R87: the resolution is the three slots in sequence. -/
theorem resolve_bind (m0 m1 m2 : Mode) (s : State) (f : Eas → Except Raised State) :
    (resolve m0 m1 m2 s >>= f) =
      resolveSlot 0 m0 s >>= fun ea0 => resolveSlot 1 m1 s >>= fun ea1 => resolveSlot 2 m2 s >>= fun ea2 =>
      f { ea0 := ea0, ea1 := ea1, ea2 := ea2 } := by
  unfold resolve
  cases resolveSlot 0 m0 s with
  | error r => rfl
  | ok ea0 =>
    cases resolveSlot 1 m1 s with
    | error r => rfl
    | ok ea1 => cases resolveSlot 2 m2 s <;> rfl

theorem runOperation_eq_conclude (m0 m1 m2 : Mode) (op : Eas → State → Except Raised State) (s : State) :
    runOperation m0 m1 m2 op s = .next (s.conclude (resolve m0 m1 m2 s >>= fun ea => op ea s)) := by
  unfold runOperation
  cases resolve m0 m1 m2 s <;> rfl

/-- R80: on a word that decodes, the literal cycle is the instruction's operation after the resolution. -/
theorem exec_of_decode_ok {s : State} {i : Instr} (hpc : 0 ≤ s.pc.toInt)
    (hd : decode (s.mem.read s.pc.toNat) = .ok i) : exec i s = .next (s.conclude (cycleBody s)) := by
  obtain ⟨hop, h0, h1, h2⟩ := decode_ok.1 hd
  rw [exec_eq, runOperation_eq_conclude, resolve_bind, cycleBody_of_pc_nonneg hpc, cycleSlot_valid h0, cycleSlot_valid h1,
    cycleSlot_valid h2, hop]
  simp only [cycleCase_instr]

/-- R80: the step of a core that has one is the literal cycle. -/
theorem step_eq_cycleBody {s : State} (hs : s.canStep) : step s = .next (s.conclude (cycleBody s)) := by
  rcases lt_or_ge s.pc.toInt 0 with hpc | hpc
  · rw [step_of_pc_neg hs hpc, cycleBody_of_pc_neg hpc, conclude_error]
  · cases hd : decode (s.mem.read s.pc.toNat) with
    | error e => rw [step_of_decode_refused hs hpc hd, cycleBody_of_decode_refused hpc hd, conclude_error]
    | ok i => rw [step_of_decode_ok hs hpc hd, exec_of_decode_ok hpc hd]

/-- Settles O13: `step_eq_cycleBody` where the core has a step, and neither answers a state elsewhere. -/
theorem stepIsTheCycle : Obligations.StepIsTheCycle := by
  intro s
  by_cases hs : s.canStep
  · rw [step_eq_cycleBody hs, cycle, if_pos hs]
  · obtain ⟨f, hf⟩ := step_of_not_canStep hs
    rw [hf, cycle, if_neg hs]

/-- Settles O11: `step_eq_cycleBody` gives the next state, and each standing without a step has its stop. -/
theorem stepExactlyWhenRunning : Obligations.StepExactlyWhenRunning := by
  refine ⟨fun s => ⟨?_, fun hs => ⟨_, step_eq_cycleBody hs⟩⟩, fun _ => step_of_fault_recorded, fun _ => step_of_halted,
    fun _ => step_of_idle⟩
  rintro ⟨t, ht⟩
  exact (step_cases ht).1

/-- Settles O14. -/
theorem stepRunsDecoded : Obligations.StepRunsDecoded := fun _ _ => step_of_decode_ok

/-- Settles O16: the two cases of `memRead` at the pc, and the fault `raise` records. -/
theorem fetchReadsWordAtPc : Obligations.FetchReadsWordAtPc := by
  intro s
  refine ⟨fun hpc => memRead_of_nonneg hpc s, fun hpc => memRead_of_neg hpc s, fun hs hpc => ?_⟩
  rw [step_of_pc_neg hs hpc, raise_of_no_fault hs.2]
  rfl

/-! A placed instruction (log entry 8). -/

/-- The first placed word stands at the address it was placed at. -/
theorem place_read_head {m : Memory} (h : m.wf) {a : Nat} (ha : a < Config.addrLimit) (v : Word) (rest : List Word) :
    (m.place a (v :: rest)).read a = v := by
  rw [Memory.place, if_pos ha, place_read_below rest _ _ _ (Nat.lt_succ_self a), read_write_same h]

theorem withProgramAtPc_canStep (s : State) (ws : List Word) : (s.withProgramAtPc ws).canStep := ⟨rfl, rfl⟩

theorem withProgramAtPc_pc_nonneg (s : State) (ws : List Word) : 0 ≤ (s.withProgramAtPc ws).pc.toInt := by
  show 0 ≤ (if s.pc.toInt < 0 then 0 else s.pc : Word).toInt
  split
  · decide
  · omega

/-- The word at the pc is the first word of the placed program. -/
theorem withProgramAtPc_read_pc {s : State} (h : s.mem.wf) (v : Word) (rest : List Word) :
    (s.withProgramAtPc (v :: rest)).mem.read (s.withProgramAtPc (v :: rest)).pc.toNat = v :=
  place_read_head h (toNat_lt_of_nonneg (withProgramAtPc_pc_nonneg s (v :: rest))) v rest

/-- The instruction of a table word is decoded from its first word. -/
theorem tableWords_of_decodeTableWord {nbits w : Nat} {i : Instr} (h : decodeTableWord nbits w = some i) :
    ∃ iw rest, tableWords nbits w = iw :: rest ∧ decode iw = .ok i := by
  obtain ⟨iw, hhead, hdecode⟩ := Option.bind_eq_some_iff.1 h
  obtain ⟨rest, hwords⟩ := List.head?_eq_some_iff.1 hhead
  refine ⟨iw, rest, hwords, ?_⟩
  cases hd : decode iw with
  | error e => simp [hd, Except.toOption] at hdecode
  | ok j => simpa [hd, Except.toOption] using hdecode

/-- Settles O15: the state of `withFetchWord` has a step, and the word at its pc is the table word's first. -/
theorem stepRunsPlacedWord : Obligations.StepRunsPlacedWord := by
  intro s nbits w i hs hi
  obtain ⟨iw, rest, hwords, hd⟩ := tableWords_of_decodeTableWord hi
  rw [State.withFetchWord, hwords]
  refine step_of_decode_ok (withProgramAtPc_canStep s _) (withProgramAtPc_pc_nonneg s _) ?_
  rw [withProgramAtPc_read_pc hs, hd]

/-! The three slots (R84 to R87). -/

/-- R86, R87: the first slot that cannot be read is the fault of the resolution. -/
theorem resolve_of_first_unreadable {i : Instr} {s : State} {k : Slot}
    (hread : ∀ j : Slot, j < k → slotReadable j (i.mode j) s) (hk : ¬ slotReadable k (i.mode k) s) :
    resolve i.mode0 i.mode1 i.mode2 s = .error (negativeAddress (paramAddr s.pc k)) := by
  rcases slot_cases k with rfl | rfl | rfl
  · have h0 : ¬ slotReadable 0 i.mode0 s := hk
    simp [resolve, resolveSlot_of_unreadable h0]
  · have h0 : slotReadable 0 i.mode0 s := hread 0 (by decide)
    have h1 : ¬ slotReadable 1 i.mode1 s := hk
    simp [resolve, resolveSlot_of_readable h0, resolveSlot_of_unreadable h1]
  · have h0 : slotReadable 0 i.mode0 s := hread 0 (by decide)
    have h1 : slotReadable 1 i.mode1 s := hread 1 (by decide)
    have h2 : ¬ slotReadable 2 i.mode2 s := hk
    simp [resolve, resolveSlot_of_readable h0, resolveSlot_of_readable h1, resolveSlot_of_unreadable h2]

/-- Settles O23: the resolution faults before the operation is reached. -/
theorem unreadableSlotRaises : Obligations.UnreadableSlotRaises := by
  intro i s k hread hmode hneg
  have hunreadable : ¬ slotReadable k (i.mode k) s := fun h => absurd (h hmode) (not_le.2 hneg)
  rw [exec_eq, runOperation_eq_conclude, resolve_of_first_unreadable hread hunreadable]
  rfl

/-- R84, R85: the effective address of each mode, three words or more below the top of the address space. -/
theorem effectiveAddr_of_pc_le {s : State} (h : 0 ≤ s.pc.toInt) (h' : s.pc.toInt ≤ 9223372036854775804) (k : Slot)
    (m : Mode) :
    (m = .position → effectiveAddr k m s = s.mem.read (s.pc.toNat + (k.val + 1))) ∧
    (m = .immediate → (effectiveAddr k m s).toInt = s.pc.toInt + (k.val + 1 : Nat)) := by
  constructor
  · rintro rfl
    rw [← paramAddr_toNat h h' k]
    rfl
  · rintro rfl
    rw [effectiveAddr, paramAddr_toInt h h' k]
    omega

/-- Settles O29: every slot is readable, and `effectiveAddr_of_pc_le` gives each its address. -/
theorem slotsResolve : Obligations.SlotsResolve := by
  intro m0 m1 m2 s hpc htop
  have hread := slotReadable_of_pc_le hpc htop
  have haddr := effectiveAddr_of_pc_le hpc htop
  exact ⟨_, resolve_of_readable ⟨hread 0 m0, hread 1 m1, hread 2 m2⟩, rfl, (haddr 0 m0).1, (haddr 0 m0).2,
    (haddr 1 m1).1, (haddr 1 m1).2, (haddr 2 m2).1, (haddr 2 m2).2⟩

/-! The jump to itself (R91, R175). -/

/-- R91, R120: a taken jump at non-negative addresses moves the pc and nothing else. -/
theorem jumpPath_of_taken {taken : Word → Bool} {ea : Eas} {s : State} (h0 : 0 ≤ ea.ea0.toInt) (h1 : 0 ≤ ea.ea1.toInt)
    (ht : taken (s.mem.read ea.ea0.toNat) = true) : jumpPath taken ea s = .ok { s with pc := s.mem.read ea.ea1.toNat } := by
  rcases jumpPath_cases taken ea s with ⟨hneg, -⟩ | ⟨-, hnot, -⟩ | ⟨-, -, hneg, -⟩ | ⟨-, -, -, e⟩
  · omega
  · simp [ht] at hnot
  · omega
  · exact e

/-- Settles O48: the taken jump leaves the state as it is, so the run stays there (`run_fixed`). -/
theorem selfJumpNeverEnds : Obligations.SelfJumpNeverEnds := by
  intro m0 m1 m2 s hs hpc hread ea h0 h1 hself hjump
  have hpath : ∀ taken : Word → Bool, taken (s.mem.read ea.ea0.toNat) = true →
      runOperation m0 m1 m2 (jumpPath taken) s = .next s := by
    intro taken ht
    rw [runOperation_of_readable hread, jumpPath_of_taken h0 h1 ht, hself, conclude_ok]
  apply run_fixed
  rcases hjump with ⟨hd, hc⟩ | ⟨hd, hc⟩ <;> rw [step_of_decode_ok hs hpc hd]
  · exact hpath takenIfTrue (by simpa [takenIfTrue] using hc)
  · exact hpath takenIfFalse (by simpa [takenIfFalse] using hc)

end Sys2Proof.Machine
end

section
/-! PROOFS. ADD and MUL as the ALU cycle (41_arithmetic.md R100 to R102), and the frame of the instructions of three
operands (R100, R161). -/

namespace Sys2Proof.Machine

/-- R100: an ALU cycle whose slots resolve, whole: the state it completes with, and its fault at the first negative address
of ea[0], ea[1], ea[2]. -/
theorem runOperation_alu_result {m0 m1 m2 : Mode} {s : State} (hread : slotsReadable m0 m1 m2 s)
    (f : Word → Word → Word) :
    let ea := effectiveAddrs m0 m1 m2 s
    let cycleEnd := runOperation m0 m1 m2 (aluDataPath f) s
    (0 ≤ ea.ea0.toInt → 0 ≤ ea.ea1.toInt → 0 ≤ ea.ea2.toInt → cycleEnd = .next { s with
      mem := s.mem.write ea.ea2.toNat (f (s.mem.read ea.ea0.toNat) (s.mem.read ea.ea1.toNat)),
      pc := wrap (s.pc.toInt + 4) }) ∧
    (ea.ea0.toInt < 0 → cycleEnd = .next (s.raise (negativeAddress ea.ea0))) ∧
    (0 ≤ ea.ea0.toInt → ea.ea1.toInt < 0 → cycleEnd = .next (s.raise (negativeAddress ea.ea1))) ∧
    (0 ≤ ea.ea0.toInt → 0 ≤ ea.ea1.toInt → ea.ea2.toInt < 0 →
      cycleEnd = .next (s.raise (negativeAddress ea.ea2))) := by
  intro ea cycleEnd
  have hend : cycleEnd = .next (s.conclude (aluDataPath f ea s)) := runOperation_of_readable hread _
  rcases aluDataPath_cases f ea s with ⟨h0, h1, h2, e⟩ | ⟨h0, e⟩ | ⟨h0, h1, e⟩ | ⟨h0, h1, h2, e⟩ <;> rw [hend, e]
  · refine ⟨fun _ _ _ => rfl, ?_, ?_, ?_⟩ <;> omega
  · refine ⟨?_, fun _ => rfl, ?_, ?_⟩ <;> omega
  · refine ⟨?_, ?_, fun _ _ => rfl, ?_⟩ <;> omega
  · refine ⟨?_, ?_, ?_, fun _ _ _ => rfl⟩ <;> omega

/-- Settles O37: ADD is the ALU cycle with the wrapped sum. -/
theorem addResult : Obligations.AddResult := fun _ _ _ _ =>
  ⟨rfl, fun hread => runOperation_alu_result hread aluAdd⟩

/-- Settles O38: MUL is the ALU cycle with the wrapped product. -/
theorem mulResult : Obligations.MulResult := fun _ _ _ _ =>
  ⟨rfl, fun hread => runOperation_alu_result hread aluMul⟩

/-- R100: an operation of three operands that completes writes one word at ea[2] and advances the pc by 4. -/
theorem operation_ok_of_arity_three {i : Instr} {ea : Eas} {s t : State} (hi : i.arity = 3)
    (h : operation i ea s = .ok t) :
    ∃ v, t = { s with mem := s.mem.write ea.ea2.toNat v, pc := wrap (s.pc.toInt + 4) } := by
  have hop := opcode_of_arity_three hi
  rcases operation_ok h with ⟨-, -, ht⟩ | ⟨hin, -⟩ | ⟨⟨hin, -⟩ | ⟨hout, -⟩, -⟩ | ⟨hout, -⟩ | ⟨hjump, -⟩ | ⟨hhlt, -⟩
  · exact ht
  all_goals omega

/-- Settles O50: a cycle that takes a fault raises and does nothing else, and one that completes has written at ea[2] alone
(`operation_ok_of_arity_three`), which no other address sees (`read_write_other`). -/
theorem aluFrame : Obligations.AluFrame := by
  intro i s t hi h
  rcases exec_cases i s with ⟨-, u, hop, he⟩ | ⟨-, r, -, he⟩ | ⟨-, k, -, he⟩ <;> rw [he] at h <;> cases h
  · obtain ⟨v, rfl⟩ := operation_ok_of_arity_three hi hop
    exact .inr ⟨rfl, rfl, rfl, rfl, fun a ha => read_write_other s.mem ha v⟩
  · exact .inl ⟨r, rfl⟩
  · exact .inl ⟨_, rfl⟩

end Sys2Proof.Machine
end

section
/-! PROOFS. IN and OUT (42_io.md R110 to R113): each operation whole, the hold of an open model (R174), and the frames of the
instructions that do not use the ALU (R161). -/

namespace Sys2Proof.Machine

/-- Settles O41: of the four ends of `opIn` (`opIn_cases`), each clause names the premises of one. -/
theorem inResult : Obligations.InResult := by
  intro m0 m1 m2 s
  refine ⟨rfl, fun hread => ?_⟩
  intro ea
  have hend : exec (.inp m0 m1 m2) s = .next (s.conclude (opIn ea s)) := runOperation_of_readable hread opIn
  rcases opIn_cases ea s with ⟨hneg, e⟩ | ⟨h0, hready, e⟩ | ⟨h0, hready, hseq, e⟩ | ⟨v, rest, h0, hready, hseq, e⟩ <;>
    rw [hend, e]
  · refine ⟨fun _ _ _ => ?_, ?_, ?_, fun _ => rfl⟩ <;> omega
  · exact ⟨by simp [hready], by simp [hready], fun _ _ => rfl, by omega⟩
  · exact ⟨by simp [hseq], fun _ _ _ => rfl, by simp [hready], by omega⟩
  · refine ⟨fun w rest' _ _ hw => ?_, by simp [hseq], by simp [hready], by omega⟩
    cases hseq.symm.trans hw
    rfl

/-- Settles O42: of the three ends of `opOut` (`opOut_cases`), each clause names the premises of one. -/
theorem outResult : Obligations.OutResult := by
  intro m0 m1 m2 s
  refine ⟨rfl, fun hread => ?_⟩
  intro ea
  have hend : exec (.out m0 m1 m2) s = .next (s.conclude (opOut ea s)) := runOperation_of_readable hread opOut
  rcases opOut_cases ea s with ⟨hneg, e⟩ | ⟨h0, hready, e⟩ | ⟨h0, hready, e⟩ <;> rw [hend, e]
  · refine ⟨?_, ?_, fun _ => rfl⟩ <;> omega
  · exact ⟨by simp [hready], fun _ _ => rfl, by omega⟩
  · exact ⟨fun _ _ => rfl, by simp [hready], by omega⟩

/-! The answers of the ports, and their readiness (log entry 6). -/

/-- R110: the input port answers NotReady exactly where it is not ready. -/
theorem inNext_notReady_iff (s : State) : (inNext s).1 = .notReady ↔ s.inPort.ready = false := by
  cases hready : s.inPort.ready with
  | false => simp [inNext, hready]
  | true => cases hseq : s.inPort.seq <;> simp [inNext, hready, hseq]

/-- R111: the output port accepts exactly where it is ready. -/
theorem outEmit_accepted_iff (v : Word) (s : State) : (outEmit v s).1 = .accepted ↔ s.outPort.ready = true := by
  cases hready : s.outPort.ready <;> simp [outEmit, hready]

/-- R174: only the environment changes what a port can answer. -/
theorem operation_ok_ready {i : Instr} {ea : Eas} {s t : State} (h : operation i ea s = .ok t) :
    t.inPort.ready = s.inPort.ready ∧ t.outPort.ready = s.outPort.ready := by
  rcases operation_ok h with ⟨-, -, v, rfl⟩ | ⟨-, -, -, v, rest, -, rfl⟩ | ⟨-, rfl⟩ | ⟨-, -, -, rfl⟩ |
    ⟨-, rfl | ⟨-, rfl⟩⟩ | ⟨-, rfl⟩ <;> exact ⟨rfl, rfl⟩

/-- R110, R111: a step keeps the closed model closed. -/
theorem step_closed {s t : State} (hs : s.closed) (h : step s = .next t) : t.closed := by
  rcases step_raises_or_completes h with ⟨r, -, rfl⟩ | ⟨i, -, hop⟩
  · simpa [State.closed] using hs
  · obtain ⟨hin, hout⟩ := operation_ok_ready hop
    exact ⟨hin.trans hs.1, hout.trans hs.2⟩

/-- Settles O45: a held core steps to its own state by the hold clauses of `inResult` and `outResult`, so the run stays there
(`run_fixed`). -/
theorem holdsLastAndClosedModelNeverHolds : Obligations.HoldsLastAndClosedModelNeverHolds := by
  refine ⟨fun s hs => ⟨?_, fun v => (outEmit_accepted_iff v s).2 hs.2⟩, fun _ _ => step_closed, ?_⟩
  · simp [inNext_notReady_iff, hs.1]
  · intro m0 m1 m2 s hs hpc hread h0 hheld
    apply run_fixed
    rcases hheld with ⟨hd, hready⟩ | ⟨hd, hready⟩ <;> rw [step_of_decode_ok hs hpc hd]
    · obtain ⟨-, -, hhold, -⟩ := (inResult m0 m1 m2 s).2 hread
      exact hhold h0 hready
    · obtain ⟨-, hhold, -⟩ := (outResult m0 m1 m2 s).2 hread
      exact hhold h0 hready

/-! The frames. -/

/-- R161: an instruction takes a fault, or completes its operation. -/
theorem exec_raises_or_completes {i : Instr} {s t : State} (h : exec i s = .next t) :
    (∃ r, t = s.raise r) ∨ operation i (instrAddrs i s) s = .ok t := by
  rcases exec_cases i s with ⟨-, u, hop, he⟩ | ⟨-, r, -, he⟩ | ⟨-, k, -, he⟩ <;> rw [he] at h <;> cases h
  · exact .inr hop
  · exact .inl ⟨r, rfl⟩
  · exact .inl ⟨_, rfl⟩

/-- Settles O51: an IN that completes is held, or writes at ea[0] alone, which no other address sees (`read_write_other`). -/
theorem inFrame : Obligations.InFrame := by
  intro m0 m1 m2 s t h
  refine (exec_raises_or_completes h).imp_right fun hop => ?_
  have hin : opIn (effectiveAddrs m0 m1 m2 s) s = .ok t := hop
  rcases opIn_cases (effectiveAddrs m0 m1 m2 s) s with ⟨-, e⟩ | ⟨-, -, e⟩ | ⟨-, -, -, e⟩ | ⟨v, rest, -, -, hseq, e⟩ <;>
    rw [e] at hin <;> cases hin
  · exact ⟨rfl, rfl, rfl, rfl, .inl rfl, fun _ _ => rfl⟩
  · exact ⟨rfl, rfl, rfl, rfl, .inr (by rw [hseq]; rfl), fun a ha => read_write_other s.mem ha v⟩

/-- Settles O52: a fault taken changes the record alone, and of the ways an operation completes (`operation_ok`) the two that
write memory belong to other opcodes. -/
theorem nonStoringFrame : Obligations.NonStoringFrame := by
  intro i s t hi h
  rcases exec_raises_or_completes h with ⟨r, rfl⟩ | hop
  · exact ⟨by simp, by simp, by simp, .inl (by simp), .inl (by simp), by simp, .inr ⟨r, rfl⟩⟩
  · rcases operation_ok hop with ⟨-, harity, -⟩ | ⟨hin, -⟩ | ⟨-, rfl⟩ | ⟨hout, -, -, rfl⟩ | ⟨hjump, rfl | ⟨-, rfl⟩⟩ |
      ⟨hhlt, rfl⟩
    · have := opcode_of_arity_three harity
      omega
    · omega
    · exact ⟨fun _ => rfl, rfl, rfl, .inl rfl, .inl rfl, fun _ => rfl, .inl rfl⟩
    · exact ⟨fun _ => rfl, rfl, rfl, .inr ⟨hout, _, rfl⟩, .inl rfl, by omega, .inl rfl⟩
    · exact ⟨fun _ => rfl, rfl, rfl, .inl rfl, .inl rfl, by omega, .inl rfl⟩
    · exact ⟨fun _ => rfl, rfl, rfl, .inl rfl, .inl rfl, by omega, .inl rfl⟩
    · exact ⟨fun _ => rfl, rfl, rfl, .inl rfl, .inr ⟨hhlt, rfl⟩, fun _ => rfl, .inl rfl⟩

end Sys2Proof.Machine
end

section
/-! PROOFS. JT and JF as the jump cycle (43_jumps.md R120 to R122): the two differ in the condition on the word at ea[0]
alone. -/

namespace Sys2Proof.Machine

/-- R120: a jump cycle whose slots resolve, whole: taken, not taken whatever ea[1] is, and its faults at a negative ea[0] and,
only if taken, at a negative ea[1]. -/
theorem runOperation_jump_result {m0 m1 m2 : Mode} {s : State} (hread : slotsReadable m0 m1 m2 s)
    (taken : Word → Bool) :
    let ea := effectiveAddrs m0 m1 m2 s
    let cond := taken (s.mem.read ea.ea0.toNat)
    let cycleEnd := runOperation m0 m1 m2 (jumpPath taken) s
    (0 ≤ ea.ea0.toInt → cond = true → 0 ≤ ea.ea1.toInt →
      cycleEnd = .next { s with pc := s.mem.read ea.ea1.toNat }) ∧
    (0 ≤ ea.ea0.toInt → cond = false → cycleEnd = .next { s with pc := wrap (s.pc.toInt + 3) }) ∧
    (ea.ea0.toInt < 0 → cycleEnd = .next (s.raise (negativeAddress ea.ea0))) ∧
    (0 ≤ ea.ea0.toInt → cond = true → ea.ea1.toInt < 0 →
      cycleEnd = .next (s.raise (negativeAddress ea.ea1))) := by
  intro ea cond cycleEnd
  have hend : cycleEnd = .next (s.conclude (jumpPath taken ea s)) := runOperation_of_readable hread _
  rcases jumpPath_cases taken ea s with ⟨h0, e⟩ | ⟨h0, hc, e⟩ | ⟨h0, hc, h1, e⟩ | ⟨h0, hc, h1, e⟩ <;> rw [hend, e]
  · refine ⟨?_, ?_, fun _ => rfl, ?_⟩ <;> omega
  · exact ⟨by simp [cond, hc], fun _ _ => rfl, by omega, by simp [cond, hc]⟩
  · exact ⟨by omega, by simp [cond, hc], by omega, fun _ _ _ => rfl⟩
  · exact ⟨fun _ _ _ => rfl, by simp [cond, hc], by omega, by omega⟩

/-- R89, R121: JT is the jump cycle with the condition `takenIfTrue`. -/
theorem exec_jt (m0 m1 m2 : Mode) (s : State) :
    exec (.jt m0 m1 m2) s = runOperation m0 m1 m2 (jumpPath takenIfTrue) s := rfl

/-- R89, R122: JF is the jump cycle with the condition `takenIfFalse`. -/
theorem exec_jf (m0 m1 m2 : Mode) (s : State) :
    exec (.jf m0 m1 m2) s = runOperation m0 m1 m2 (jumpPath takenIfFalse) s := rfl

/-- Settles O46: JT is the jump cycle taken on a word other than 0. -/
theorem jtResult : Obligations.JtResult := by
  intro m0 m1 m2 s
  refine ⟨rfl, fun hread => ?_⟩
  simpa [exec_jt, takenIfTrue] using runOperation_jump_result hread takenIfTrue

/-- Settles O47: JF is the jump cycle taken on the word 0. -/
theorem jfResult : Obligations.JfResult := by
  intro m0 m1 m2 s
  refine ⟨rfl, fun hread => ?_⟩
  simpa [exec_jf, takenIfFalse] using runOperation_jump_result hread takenIfFalse

end Sys2Proof.Machine
end

section
/-! PROOFS. LT and EQ as the ALU cycle (44_comparison.md R130 to R132): the two differ in the condition whose truth they
store. -/

namespace Sys2Proof.Machine

/-- R130: the word a comparison writes, by the condition itself and not its Boolean. -/
theorem truthWord_decide (p : Prop) [Decidable p] : truthWord (decide p) = if p then 1 else 0 := by
  by_cases hp : p <;> simp [truthWord, hp]

/-- R89, R131: LT is the ALU cycle with `aluLt`. -/
theorem exec_lt_eq_alu (m0 m1 m2 : Mode) (s : State) :
    exec (.lt m0 m1 m2) s = runOperation m0 m1 m2 (aluDataPath aluLt) s := rfl

/-- R89, R132: EQ is the ALU cycle with `aluEq`. -/
theorem exec_eq_eq_alu (m0 m1 m2 : Mode) (s : State) :
    exec (.eq m0 m1 m2) s = runOperation m0 m1 m2 (aluDataPath aluEq) s := rfl

/-- Settles O39: LT is the ALU cycle with the truth of the signed comparison. -/
theorem ltResult : Obligations.LtResult := by
  intro m0 m1 m2 s
  refine ⟨rfl, fun hread => ?_⟩
  simpa only [exec_lt_eq_alu, aluLt, truthWord_decide] using runOperation_alu_result hread aluLt

/-- Settles O40: EQ is the ALU cycle with the truth of the equality of whole words. -/
theorem eqResult : Obligations.EqResult := by
  intro m0 m1 m2 s
  refine ⟨rfl, fun hread => ?_⟩
  simpa only [exec_eq_eq_alu, aluEq, truthWord_decide] using runOperation_alu_result hread aluEq

end Sys2Proof.Machine
end

section
/-! PROOFS. HLT (45_halt.md R140): the halt operation completes whatever its effective addresses, and the state it leaves has
no step (R80). -/

namespace Sys2Proof.Machine

/-- R89, R140: HLT is the shared cycle around the halt operation. -/
theorem exec_hlt (m0 m1 m2 : Mode) (s : State) :
    exec (.hlt m0 m1 m2) s = runOperation m0 m1 m2 opHlt s := rfl

/-- R80: a halted core has no step, with or without a recorded fault. -/
theorem not_exists_step_of_halted {s : State} (h : s.runState = .halted) : ¬ ∃ t, step s = .next t := by
  rw [stepExactlyWhenRunning.1 s]
  rintro ⟨hrunning, -⟩
  simp [h] at hrunning

/-- Settles O49: once the slots resolve, the cycle concludes with what `opHlt_eq` gives for any effective addresses. -/
theorem hltResult : Obligations.HltResult := by
  intro m0 m1 m2 s
  refine ⟨rfl, fun hread => ?_, not_exists_step_of_halted rfl⟩
  rw [exec_hlt, runOperation_of_readable hread, opHlt_eq, conclude_ok]

end Sys2Proof.Machine
end

section
/-! PROOFS. Faults (60_exceptions.md R150 to R172): what raising one does, that it is all a faulting cycle does, the two faults
of the instruction word, and the standing of a run by the state alone. -/

namespace Sys2Proof.Machine

/-! Raising a fault (R160, R161): the cycle still ends in a next state, with the record written and nothing more. -/

/-- Settles O12: every instruction is the shared cycle, which always concludes. -/
theorem noInstructionStops : Obligations.NoInstructionStops := fun i s =>
  ⟨_, (exec_eq i s).trans (runOperation_eq_conclude i.mode0 i.mode1 i.mode2 (operation i) s)⟩

/-- R160: a raise leaves a core that has no step. -/
theorem not_exists_step_of_raise (s : State) (r : Raised) : ¬ ∃ t, step (s.raise r) = .next t := by
  rw [stepExactlyWhenRunning.1 (s.raise r)]
  rintro ⟨-, hnone⟩
  exact raise_fault_ne r hnone

/-- Settles O18. -/
theorem raiseRecordsFault : Obligations.RaiseRecordsFault := by
  intro s r
  refine ⟨fun hnone => raise_of_no_fault hnone r, fun hsome => ?_, raise_runState s r, not_exists_step_of_raise s r⟩
  obtain ⟨f, hf⟩ := Option.ne_none_iff_exists'.1 hsome
  exact raise_of_fault hf r

/-- Settles O19: only a cycle that raises leaves a record (`operation_ok_fault`), and from a core with a step the raise writes
the record of this cycle. -/
theorem faultsArePrecise : Obligations.FaultsArePrecise := by
  intro s t h ht
  have hnone : s.fault = none := (step_cases h).1.2
  rcases step_raises_or_completes h with ⟨r, hwf, rfl⟩ | ⟨i, -, hop⟩
  · exact ⟨_, rfl, hwf, raise_of_no_fault hnone r⟩
  · exact absurd ((operation_ok_fault hop).trans hnone) ht

/-! The faults of the instruction word (R151, R152), read off the literal cycle, whose order of checks is R162's. -/

/-- R80, R160: a cycle that raises records that fault and changes nothing else. -/
theorem step_of_cycleBody_error {s : State} {r : Raised} (hs : s.canStep) (h : cycleBody s = .error r) :
    step s = .next { s with fault := some ⟨r.kind, s.pc, r.value, r.slot⟩ } := by
  rw [step_eq_cycleBody hs, h, conclude_error, raise_of_no_fault hs.2]

/-- R83 to R85: a slot with a legal mode value and, in Position mode, a readable parameter word lets the cycle go on. -/
theorem cycleSlot_of_readable {iw : Word} {k : Slot} {s : State} (hmode : modeField iw k = 0 ∨ modeField iw k = 1)
    (hread : modeField iw k = 0 → 0 ≤ (paramAddr s.pc k).toInt) : ∃ ea, cycleSlot iw k s = .ok ea := by
  rcases hmode with h | h
  · exact ⟨_, (cycleSlot_valid (m := .position) h s).trans (memRead_of_nonneg (hread h) s)⟩
  · exact ⟨_, cycleSlot_valid (m := .immediate) h s⟩

/-- R151, R162: an opcode outside the table is met once all three slots have resolved. -/
theorem cycleBody_of_bad_opcode {s : State} (hpc : 0 ≤ s.pc.toInt)
    (hslots : ∀ k, ∃ ea, cycleSlot (s.mem.read s.pc.toNat) k s = .ok ea)
    (hbad : ∀ n ∈ Config.opcodes, opcodeField (s.mem.read s.pc.toNat) ≠ (n : Int)) :
    cycleBody s = .error (invalidOpcode (wrap (opcodeField (s.mem.read s.pc.toNat)))) := by
  obtain ⟨⟨ea0, h0⟩, ⟨ea1, h1⟩, ⟨ea2, h2⟩⟩ := forall_slot.1 hslots
  rw [cycleBody_of_pc_nonneg hpc, h0, h1, h2]
  exact cycleCase_bad hbad _ s

/-- R152, R162: an illegal mode value is met once the lower slots have resolved, before the higher slots and the opcode. -/
theorem cycleBody_of_bad_mode {s : State} {k : Slot} (hpc : 0 ≤ s.pc.toInt)
    (hslots : ∀ j < k, ∃ ea, cycleSlot (s.mem.read s.pc.toNat) j s = .ok ea)
    (hbad : modeField (s.mem.read s.pc.toNat) k ≠ 0 ∧ modeField (s.mem.read s.pc.toNat) k ≠ 1) :
    cycleBody s = .error (invalidParameterMode (wrap (modeField (s.mem.read s.pc.toNat) k)) k) := by
  rw [cycleBody_of_pc_nonneg hpc]
  rcases slot_cases k with rfl | rfl | rfl
  · rw [cycleSlot_bad hbad]
    rfl
  · obtain ⟨ea0, h0⟩ := hslots 0 (by decide)
    rw [h0, cycleSlot_bad hbad]
    rfl
  · obtain ⟨ea0, h0⟩ := hslots 0 (by decide)
    obtain ⟨ea1, h1⟩ := hslots 1 (by decide)
    rw [h0, h1, cycleSlot_bad hbad]
    rfl

/-- Settles O20. -/
theorem invalidOpcodeRaised : Obligations.InvalidOpcodeRaised := by
  intro s hs hpc iw hmodes hread hbad
  have hslots : ∀ k, ∃ ea, cycleSlot iw k s = .ok ea := fun k => cycleSlot_of_readable (hmodes k) (hread k)
  exact step_of_cycleBody_error hs (cycleBody_of_bad_opcode hpc hslots hbad)

/-- Settles O21. -/
theorem invalidParameterModeRaised : Obligations.InvalidParameterModeRaised := by
  intro s k hs hpc iw hbad hmodes hread
  have hslots : ∀ j < k, ∃ ea, cycleSlot iw j s = .ok ea := fun j hj => cycleSlot_of_readable (hmodes j hj) (hread j hj)
  exact step_of_cycleBody_error hs (cycleBody_of_bad_mode hpc hslots hbad)

/-! The standing of a run (R172), beside `status_notEnded`. -/

theorem status_errorTerminal {s : State} : s.status = .errorTerminal ↔ s.fault ≠ none := by
  unfold State.status; cases s.fault <;> cases s.runState <;> simp

theorem status_cleanEnd {s : State} : s.status = .cleanEnd ↔ s.runState = .halted ∧ s.fault = none := by
  unfold State.status; cases s.fault <;> cases s.runState <;> simp

theorem status_notStarted {s : State} : s.status = .notStarted ↔ s.runState = .idle ∧ s.fault = none := by
  unfold State.status; cases s.fault <;> cases s.runState <;> simp

/-- R160: in a state of the invariant a fault is recorded only while Running. -/
theorem State.Inv.fault_eq_none {s : State} (hinv : s.Inv) (hr : s.runState ≠ .running) : s.fault = none := by
  by_contra hsome
  obtain ⟨f, hf⟩ := Option.ne_none_iff_exists'.1 hsome
  exact hr (hinv.record f hf).1

/-- Settles O10: where the status asks for no recorded fault, Halted and Idle already rule one out
(`State.Inv.fault_eq_none`). -/
theorem runStatusByState : Obligations.RunStatusByState := by
  intro s hinv
  have hhalted : s.runState = .halted → s.fault = none := fun h => hinv.fault_eq_none (by simp [h])
  have hidle : s.runState = .idle → s.fault = none := fun h => hinv.fault_eq_none (by simp [h])
  refine ⟨?_, status_errorTerminal, ?_, status_notEnded, fun ⟨h, hsome⟩ => hsome (hhalted h)⟩
  · rw [status_cleanEnd, and_iff_left_of_imp hhalted]
  · rw [status_notStarted, and_iff_left_of_imp hidle]

end Sys2Proof.Machine
end

section
/-! PROOFS. Reset, start and the boot order (70_reset_and_hazards.md R180 to R187). -/

namespace Sys2Proof.Machine

/-! The events on a core with a recorded fault or a halted one (R180). -/

/-- R180: reset is the only event that writes the fault record. -/
theorem apply_fault_of_ne_reset {e : Event} (he : e ≠ .reset) (s : State) : (s.apply e).fault = s.fault := by
  cases e with
  | reset => exact absurd rfl he
  | load | supply | start | inReady | outReady => simp [State.apply]

/-- R184: a start outside Idle is ignored. -/
theorem start_of_not_idle {s : State} (h : s.runState ≠ .idle) : s.start = s := by
  simp [State.start, h]

/-- R183: a start takes Idle to Running and changes nothing else. -/
theorem start_of_idle {s : State} (h : s.runState = .idle) : s.start = { s with runState := .running } := by
  simp [State.start, h]

/-- Settles O2: no event but reset writes the fault record; of the two that write run_state (`runStateWriters`) a halted core
ignores start; and a step asks for a running core with no fault. -/
theorem onlyResetLeavesFaultOrHalt : Obligations.OnlyResetLeavesFaultOrHalt := by
  refine ⟨fun _ => rfl, fun s e _ hne => ?_, fun s e hhalted hne => ?_, fun s t h => ?_⟩
  · by_contra he
    exact hne (apply_fault_of_ne_reset he s)
  · rcases runStateWriters.1 s e (by rwa [hhalted]) with rfl | rfl
    · rfl
    · have hignored : s.start = s := start_of_not_idle (by simp [hhalted])
      exact absurd ((congrArg State.runState hignored).trans hhalted) hne
  · obtain ⟨hrunning, hfault⟩ := (step_cases h).1
    exact ⟨hfault, by simp [hrunning]⟩

/-! The first cycle (R183, R186, R187). -/

/-- R81: the fetch at the entry address 0 never faults. -/
theorem fetch_of_pc_zero {s : State} (h : s.pc = 0) : fetch s = .ok (s.mem.read 0) := by
  rw [fetch, h]
  exact memRead_of_nonneg (a := 0) (by decide) s

/-- Settles O3: the pc of an Idle state of the invariant is 0, and start moves neither the pc nor memory. -/
theorem startEventEffect : Obligations.StartEventEffect := by
  intro s
  refine ⟨start_of_idle, start_of_not_idle, fun hinv hidle => ?_⟩
  have hpc : s.start.pc = 0 := (start_pc s).trans (hinv.entry hidle)
  exact ⟨hpc, by rw [fetch_of_pc_zero hpc, start_mem]⟩

theorem launch_pc (s : State) (tokens inputs : List Word) : (s.launch tokens inputs).pc = 0 := by
  rw [launch_eq]

theorem launch_canStep (s : State) (tokens inputs : List Word) : (s.launch tokens inputs).canStep := by
  rw [launch_eq]
  exact ⟨rfl, rfl⟩

/-- R186: address 0 of a launched machine holds the first token, or 0 if there is none. -/
theorem launch_read_zero (s : State) (tokens inputs : List Word) :
    (s.launch tokens inputs).mem.read 0 = tokens.getD 0 0 :=
  (resetAndLaunchValues.2.2 s tokens inputs 0 (by decide)).1

/-- R72: the word 0, which unwritten memory holds, has legal modes and no opcode of the table. -/
theorem decode_zero : decode 0 = .error (.invalidOpcode [(0, .position), (1, .position), (2, .position)] 0) := by
  decide

/-- R160: at the entry address all slots can be read, so a word there that does not decode records the decode's fault. -/
theorem step_of_decode_error_of_pc_zero {s : State} {e : DecodeError} (hs : s.canStep) (hpc : s.pc = 0)
    (hd : decode (s.mem.read 0) = .error e) :
    step s = .next { s with fault := some ⟨(decodeRaised e).kind, 0, (decodeRaised e).value, (decodeRaised e).slot⟩ } := by
  have hvalue : s.pc.toInt = 0 := by rw [hpc]; rfl
  have hslots := slotReadable_of_pc_le (s := s) (by omega) (by omega)
  rw [step_of_decode_error hs (by omega) hslots (by rwa [hpc]), hpc]

/-- Settles O4: the fetch at pc 0 reads the first token; an empty program leaves the word 0 there, whose decode fails
(`decode_zero`). -/
theorem launchedCoreRunsFirstToken : Obligations.LaunchedCoreRunsFirstToken := by
  intro s tokens inputs
  have hpc := launch_pc s tokens inputs
  have hempty : decode ((s.launch [] inputs).mem.read 0) = .error _ :=
    (congrArg decode (launch_read_zero s [] inputs)).trans decode_zero
  exact ⟨launch_canStep s tokens inputs, hpc, by rw [fetch_of_pc_zero hpc, launch_read_zero],
    step_of_decode_error_of_pc_zero (launch_canStep s [] inputs) (launch_pc s [] inputs) hempty⟩

end Sys2Proof.Machine

namespace Sys2Proof

/-- Settles O28: each word is evaluated by the decoder. -/
theorem sampleWordsDecode : Obligations.SampleWordsDecode := by
  unfold Obligations.SampleWordsDecode
  decide

end Sys2Proof
end
